-- ==== Sys2Proof/Word.lean ====
section
/-! DEFINITION. The word types of the FWU2048 CORE and the names of its three value registers. -/

namespace Sys2Proof

/-- One limb, one host-bus word, one 64-bit scalar (00_scope.md R6, R8, R9). -/
abbrev Word := BitVec 64

/-- One 2048-bit value: 32 limbs, limb 0 least significant (00_scope.md R6, R8). -/
abbrev Val := BitVec 2048

/-- One byte of the output sink (20_memory.md R68). -/
abbrev Byte := BitVec 8

/-- The block's only general registers: two operands and one result (10_state.md R21). -/
inductive Reg where
  | a
  | b
  | r
deriving DecidableEq, Repr

end Sys2Proof
end

