-- ==== Sys2Proof/Config.lean ====
section
/-! DEFINITION. The fixed parameters (00_scope.md R6) and the decided parameters (R7). -/

namespace Sys2Proof

/-- The parameters the spec decides, each a named argument with the decided default (00_scope.md R7).
Log entry 1: they stand in `State.cfg`, so that every statement about a state covers every setting. -/
structure Config where
  /-- CNT_W (92_eei_decisions.md D6). At most 64, so that CNT fits the word the host reads it through
  (D4; log entry 2). -/
  cntW : Fin 65 := 64
  /-- HADDR_W (92_eei_decisions.md D10; log entry 3). -/
  haddrW : Nat := 8
  /-- STRICT_UNWRITTEN (92_eei_decisions.md D36; log entries 6 and 7). -/
  strictUnwritten : Bool := false
deriving DecidableEq, Repr

/-- `W`: the width in bits of every value register (R6). -/
abbrev Config.width : Nat := 2048

/-- `LIMBS` (R6). -/
abbrev Config.limbs : Nat := 32

/-- `LIMB_W` (R6). -/
abbrev Config.limbW : Nat := 64

/-- `MUL_STEPS`: the doubling steps of a multiplication, always all of them (R6; 43_mul.md R174). -/
abbrev Config.mulSteps : Nat := 2048

/-- `PRINT_MAXPOW`: the largest exponent of the decimal converter's power table (R6; 45_decimal.md R211). -/
abbrev Config.printMaxPow : Nat := 616

end Sys2Proof
end

