-- ==== Sys2Proof/Syntax.lean ====
section
/-! DEFINITION. The command set FWU2048-CMD version 1 (30_encoding.md R85): one constructor for every row
of the opcode map, with the operands its format reads (R83). -/

namespace Sys2Proof

/-- A command, as it stands after decoding. The operand types admit no ill-formed command: a selector
that is used names one of A, B, R (R82), and an immediate is an unsigned 64-bit word, so a negative or wider
input cannot be written (40_construction_compare.md R110; 92_eei_decisions.md D33). What an ill-formed
command WORD is stands in WellFormed.lean. -/
inductive Instr where
  /-- `NOP` (47_system.md R260). -/
  | nop
  /-- `LDI d, imm` (40_construction_compare.md R110). -/
  | ldi (d : Reg) (imm : Word)
  /-- `MOV d, s` (40_construction_compare.md R111). -/
  | mov (d src : Reg)
  /-- `ADD` (41_add.md R133). -/
  | add
  /-- `SUB` (42_sub.md R152). -/
  | sub
  /-- `MUL` (43_mul.md R173). -/
  | mul
  /-- `DIV` (44_div.md R194). -/
  | div
  /-- `LT` (40_construction_compare.md R112). -/
  | lt
  /-- `EQ` (40_construction_compare.md R113). -/
  | eq
  /-- `LZC` (46_bit_helpers.md R241). -/
  | lzc
  /-- `MSB` (46_bit_helpers.md R242). -/
  | msb
  /-- `BIT n` (46_bit_helpers.md R243). -/
  | bit (idx : Word)
  /-- `POW2 n` (46_bit_helpers.md R244). -/
  | pow2 (idx : Word)
  /-- `PRINT` (45_decimal.md R216). -/
  | print
  /-- `RDCNT` (47_system.md R261). -/
  | rdcnt
deriving DecidableEq, Repr

end Sys2Proof
end

