-- ==== Sys2Proof/WellFormed.lean ====
section
/-! DEFINITION. Which command words are well-formed, said by the opcode map's match and mask columns
(30_encoding.md R85), the selector rule (R82) and the upper half of the bus word (20_memory.md R57).
The decoder (Decode.lean) is written from the pseudocode of R84 instead, so that the two can be compared. -/

namespace Sys2Proof

/-- The four formats (30_encoding.md R83). -/
inductive Format where
  | f0
  | fi
  | fd
  | fds
deriving DecidableEq, Repr

/-- One row of the opcode map: its match, mask and format columns (30_encoding.md R85). -/
structure OpRow where
  pattern : BitVec 32
  mask    : BitVec 32
  format  : Format
deriving DecidableEq, Repr

/-- The opcode map, in the order of 30_encoding.md R85. -/
def opcodeMap : List OpRow :=
  [ ⟨0x00000000, 0xFFFFFFFF, .f0⟩,   -- NOP
    ⟨0x00000001, 0xFFFFFCFF, .fd⟩,   -- LDI
    ⟨0x00000002, 0xFFFFF0FF, .fds⟩,  -- MOV
    ⟨0x00000010, 0xFFFFFFFF, .f0⟩,   -- ADD
    ⟨0x00000011, 0xFFFFFFFF, .f0⟩,   -- SUB
    ⟨0x00000012, 0xFFFFFFFF, .f0⟩,   -- MUL
    ⟨0x00000013, 0xFFFFFFFF, .f0⟩,   -- DIV
    ⟨0x00000020, 0xFFFFFFFF, .f0⟩ ] ++ -- LT
  [ ⟨0x00000021, 0xFFFFFFFF, .f0⟩,   -- EQ
    ⟨0x00000030, 0xFFFFFFFF, .f0⟩,   -- LZC
    ⟨0x00000031, 0xFFFFFFFF, .f0⟩,   -- MSB
    ⟨0x00000032, 0xFFFFFFFF, .fi⟩,   -- BIT
    ⟨0x00000033, 0xFFFFFFFF, .fi⟩,   -- POW2
    ⟨0x00000040, 0xFFFFFFFF, .f0⟩,   -- PRINT
    ⟨0x00000050, 0xFFFFFFFF, .f0⟩ ]  -- RDCNT

/-- A CTRL word matches a row when `CTRL & mask == match` (30_encoding.md R85). -/
def OpRow.hits (row : OpRow) (ctrl : BitVec 32) : Bool := ctrl &&& row.mask == row.pattern

/-- A destination selector that the format uses is not the reserved 3 (30_encoding.md R82, R84). -/
def destOk (ctrl : BitVec 32) : Format → Bool
  | .fd | .fds => ctrl.extractLsb' 8 2 != 3
  | .f0 | .fi => true

/-- A source selector that the format uses is not the reserved 3 (30_encoding.md R82, R84). -/
def srcOk (ctrl : BitVec 32) : Format → Bool
  | .fds => ctrl.extractLsb' 10 2 != 3
  | .f0 | .fi | .fd => true

/-- Bits 63:32 of the word written to CMD_CTRL are zero (20_memory.md R57, 30_encoding.md R81). -/
def busHighOk (v : Word) : Bool := v.extractLsb' 32 32 == 0

/-- The bus word `v` is a command word of the opcode map. -/
def wellFormed (v : Word) : Bool :=
  busHighOk v &&
    opcodeMap.any fun row =>
      row.hits (v.setWidth 32) && destOk (v.setWidth 32) row.format && srcOk (v.setWidth 32) row.format

end Sys2Proof
end

