-- ==== Sys2Proof/Decode.lean ====
section
/-! DEFINITION. The decoder of issued bus words (30_encoding.md R84), total and rejecting by name, and after
it the encoder (R81, R82, R85, R90). -/

namespace Sys2Proof

/-- Which check of 30_encoding.md R84 a bus word fails. The block reports ILLEGAL for each of them
(60_exceptions.md R271); the name is for the reader. -/
inductive IllegalCause where
  /-- Bus-word bits 63:32 are not zero. -/
  | busHigh
  /-- CTRL[31:12] is not zero. -/
  | reservedBits
  /-- OP is unassigned. -/
  | opcode
  /-- A D or S field that the format does not use is not zero. -/
  | unusedField
  /-- A D or S field that the format uses holds the reserved value 3. -/
  | selector
deriving DecidableEq, Repr

/-- The selector encoding of the D and S fields: 0 = A, 1 = B, 2 = R, 3 = reserved (30_encoding.md R82). -/
def readSelector (sel : BitVec 2) : Option Reg :=
  if sel = 0 then some .a
  else if sel = 1 then some .b
  else if sel = 2 then some .r
  else none

/-- Formats F0 and FI: D and S must be zero (30_encoding.md R83, R84). -/
def formPlain (d s : BitVec 2) (i : Instr) : Except IllegalCause Instr :=
  if d = 0 ∧ s = 0 then .ok i else .error .unusedField

/-- Format FD: S must be zero and D must name a register (30_encoding.md R83, R84). -/
def formDest (d s : BitVec 2) (mk : Reg → Instr) : Except IllegalCause Instr :=
  if s = 0 then
    match readSelector d with
    | some dst => .ok (mk dst)
    | none => .error .selector
  else .error .unusedField

/-- Format FDS: D and S must each name a register (30_encoding.md R83, R84). -/
def formDestSrc (d s : BitVec 2) (mk : Reg → Reg → Instr) : Except IllegalCause Instr :=
  match readSelector d, readSelector s with
  | some dst, some src => .ok (mk dst src)
  | _, _ => .error .selector

/-- The assigned opcodes with their formats (30_encoding.md R83, R85). -/
def decodeOp (op : BitVec 8) (d s : BitVec 2) (imm : Word) : Except IllegalCause Instr :=
  if op = 0x00 then formPlain d s .nop
  else if op = 0x01 then formDest d s (.ldi · imm)
  else if op = 0x02 then formDestSrc d s .mov
  else if op = 0x10 then formPlain d s .add
  else if op = 0x11 then formPlain d s .sub
  else if op = 0x12 then formPlain d s .mul
  else if op = 0x13 then formPlain d s .div
  else if op = 0x20 then formPlain d s .lt
  else if op = 0x21 then formPlain d s .eq
  else if op = 0x30 then formPlain d s .lzc
  else if op = 0x31 then formPlain d s .msb
  else if op = 0x32 then formPlain d s (.bit imm)
  else if op = 0x33 then formPlain d s (.pow2 imm)
  else if op = 0x40 then formPlain d s .print
  else if op = 0x50 then formPlain d s .rdcnt
  else .error .opcode

/-- Decoding of an issued bus word `v` with `IMM = CMD_IMM` (30_encoding.md R84, fields R81): every word is a
command of the opcode map or is refused by name. -/
def decode (v imm : Word) : Except IllegalCause Instr :=
  if v.extractLsb' 32 32 ≠ 0 then .error .busHigh
  else if v.extractLsb' 12 20 ≠ 0 then .error .reservedBits
  else decodeOp (v.extractLsb' 0 8) (v.extractLsb' 8 2) (v.extractLsb' 10 2) imm

/-! ### The encoder -/

/-- A command as the host issues it: CTRL and IMM (30_encoding.md R80). -/
structure Encoded where
  ctrl : BitVec 32
  imm  : Word
deriving DecidableEq, Repr

/-- sel(A) = 0, sel(B) = 1, sel(R) = 2 (30_encoding.md R82, R90). -/
def sel : Reg → BitVec 32
  | .a => 0
  | .b => 1
  | .r => 2

/-- The CTRL word and IMM of a command, by the operand forms of 30_encoding.md R90. -/
def encode : Instr → Encoded
  | .nop => ⟨0x00000000, 0⟩
  | .ldi d imm => ⟨0x00000001 ||| (sel d <<< 8), imm⟩
  | .mov d src => ⟨0x00000002 ||| (sel d <<< 8) ||| (sel src <<< 10), 0⟩
  | .add => ⟨0x00000010, 0⟩
  | .sub => ⟨0x00000011, 0⟩
  | .mul => ⟨0x00000012, 0⟩
  | .div => ⟨0x00000013, 0⟩
  | .lt => ⟨0x00000020, 0⟩
  | .eq => ⟨0x00000021, 0⟩
  | .lzc => ⟨0x00000030, 0⟩
  | .msb => ⟨0x00000031, 0⟩
  | .bit idx => ⟨0x00000032, idx⟩
  | .pow2 idx => ⟨0x00000033, idx⟩
  | .print => ⟨0x00000040, 0⟩
  | .rdcnt => ⟨0x00000050, 0⟩

/-- The bus word that issues a command: CTRL in bits 31:0, zeros above (20_memory.md R57). -/
def Encoded.busWord (e : Encoded) : Word := e.ctrl.setWidth 64

/-! ### Table words -/

/-- Log entry 11: a command's bits numbered as the opcode table numbers them, CTRL in bits 31:0 and IMM in
bits 95:32 (30_encoding.md R80), `nbits` of them given and zeros above. -/
def tableBits (nbits w : Nat) : Nat := w % 2 ^ nbits

/-- The bus word of a table word: CTRL, bits 31:0. -/
def tableCtrl (nbits w : Nat) : Word := BitVec.ofNat 64 (tableBits nbits w % 2 ^ 32)

/-- The IMM of a table word: bits 95:32. -/
def tableImm (nbits w : Nat) : Word := BitVec.ofNat 64 (tableBits nbits w / 2 ^ 32)

/-- What the decoder reads from a table word; none where it refuses, or where a bit stands above the longest
command's 96. -/
def decodeTableWord (nbits w : Nat) : Option Instr :=
  if tableBits nbits w < 2 ^ 96 then (decode (tableCtrl nbits w) (tableImm nbits w)).toOption else none

end Sys2Proof
end

