-- ==== Sys2Proof/Machine/State.lean ====
section
/-! DEFINITION. The machine's state as plain data (10_state.md R20), the reasons a step can stop, and the state
right after reset (70_reset_and_hazards.md R300). -/

namespace Sys2Proof.Machine

open Sys2Proof

/-- Where a step stops. A fault of the BLOCK (60_exceptions.md R270) is no constructor here: it is a next state
with ST written. -/
inductive Fault where
  /-- Raised by a command or a host read that reads a value register (a host read: a limb) not written
  since reset, when STRICT_UNWRITTEN is true (10_state.md R24; 92_eei_decisions.md D36; log entries 6, 7). Safe. -/
  | unwrittenRegister (x : Reg)
  /-- Raised by a host access whose word address does not fit the HADDR_W address bits, so that no such
  access exists on HBUS (20_memory.md R51; log entry 3). Safe. -/
  | addressOutsideBus
deriving DecidableEq, Repr

/-- Why an instruction has no meaning. -/
inductive Refusal where
  /-- Raised by an arm of `exec` whose instruction has no meaning yet. Safe. No arm raises it now. -/
  | notModelled (mnemonic : String)
deriving DecidableEq, Repr

/-- The nonzero status codes (10_state.md R27; 60_exceptions.md R271). -/
inductive FaultCode where
  | illegal
  | divZero
  | badIndex
  | zeroOperand
deriving DecidableEq, Repr

/-- What the outside world does to the block, one at a time (20_memory.md R62; log entry 4). -/
inductive HostAccess where
  /-- An HBUS read of the word at `addr` (20_memory.md R53). -/
  | read (addr : Nat)
  /-- An HBUS write of `v` to the word at `addr` (20_memory.md R54). -/
  | write (addr : Nat) (v : Word)
  /-- The reset input is asserted: while idle (`none`), or while the command issued by the bus word is
  executing (70_reset_and_hazards.md R300, R301; log entry 8). -/
  | reset (during : Option Word)
deriving DecidableEq, Repr

/-- For each value register, the mask of its limbs written since reset (log entry 6). -/
structure Written where
  a : BitVec 32
  b : BitVec 32
  r : BitVec 32
deriving DecidableEq, Repr

/-- The nine elements of 10_state.md R20, then the model's own fields. -/
structure State where
  /-- A, operand 1 (R21). -/
  a : Val
  /-- B, operand 2 (R21). -/
  b : Val
  /-- R, the result (R21). -/
  r : Val
  /-- F, the flag (R31). -/
  f : BitVec 1
  /-- N, the scalar result (R25). -/
  n : Word
  /-- ST, the status word (R27). -/
  st : Word
  /-- CNT, the addition counter, in a 64-bit cell (R26; log entry 2). -/
  cnt : Word
  /-- CMD_IMM, the immediate latch (R28). -/
  cmdImm : Word
  /-- OUT, every byte emitted since reset, oldest first (R29). -/
  out : List Byte
  /-- The model's own: the parameters of 00_scope.md R7, which no step changes (R36; log entry 1). -/
  cfg : Config
  /-- The model's own: the limbs written since reset (log entry 6). -/
  written : Written
  /-- The model's own: the host accesses still to come, oldest first (log entry 4). -/
  pending : List HostAccess
  /-- The model's own: the words HBUS reads have given the host, oldest first (log entry 5). -/
  returned : List Word
deriving DecidableEq, Repr

/-- The machine right after reset (10_state.md R20; 70_reset_and_hazards.md R300, R302): every element of
R20 at zero or empty, the parameters at their defaults, nothing written, no access waiting (log entry 9). -/
def State.reset : State :=
  { a := 0
    b := 0
    r := 0
    f := 0
    n := 0
    st := 0
    cnt := 0
    cmdImm := 0
    out := []
    cfg := { }
    written := ⟨0, 0, 0⟩
    pending := []
    returned := [] }

end Sys2Proof.Machine
end

