-- ==== Sys2Proof/Machine/Flags.lean ====
section
/-! DEFINITION. The status word's fields (10_state.md R27) and the flag F's values (R31). The block has no carry,
borrow, overflow, zero or sign flag (R32). -/

namespace Sys2Proof.Machine

open Sys2Proof

/-- The code a fault writes to ST.CODE (10_state.md R27; 60_exceptions.md R271). -/
def FaultCode.code : FaultCode → BitVec 4
  | .illegal => 1
  | .divZero => 2
  | .badIndex => 3
  | .zeroOperand => 4

/-- ST.CODE, bits 3:0 (10_state.md R27). -/
def stCode (st : Word) : BitVec 4 := st.extractLsb' 0 4

/-- ST.STICKY, bit 8 (10_state.md R27). -/
def stSticky (st : Word) : Bool := st.getLsbD 8

/-- `ST.CODE <- k`, every other bit kept. -/
def withCode (st : Word) (k : BitVec 4) : Word := st.extractLsb' 4 60 ++ k

/-- `ST.STICKY <- 1`, every other bit kept. -/
def withSticky (st : Word) : Word := st ||| 0x100

/-- ST as it may read: reserved bits 7:4 and 63:9 zero, CODE at most 4, and no fault code without STICKY
(10_state.md R27; 60_exceptions.md R273, R274). -/
def stLegal (st : Word) : Bool :=
  st.extractLsb' 4 4 == 0 && st.extractLsb' 9 55 == 0 && decide (stCode st ≤ 4) &&
    (stCode st == 0 || stSticky st)

/-- The value written to F for a truth value (10_state.md R31). -/
def flagOf (p : Bool) : BitVec 1 := BitVec.ofBool p

end Sys2Proof.Machine
end

