-- ==== Sys2Proof/Machine/Ops.lean ====
section
/-! DEFINITION. The named operations over the registers: limbs and bytes of a value, reading and writing a value
register, the counted step of CNT, completing a command, and raising a fault. -/

namespace Sys2Proof.Machine

open Sys2Proof

/-- What a command's meaning answers. -/
abbrev Answer := Host.Outcome State Fault Refusal

/-! ### Values, limbs and bytes -/

/-- `limb(X, k) = X[64k+63 : 64k]` (00_scope.md R8). -/
def limb (x : Val) (k : Nat) : Word := x.extractLsb' (64 * k) 64

/-- `limb(X, k) <- v`, the other limbs kept (20_memory.md R54). -/
def setLimb (x : Val) (k : Nat) (v : Word) : Val :=
  (x &&& ~~~(BitVec.setWidth 2048 (BitVec.allOnes 64) <<< (64 * k))) ||| (v.setWidth 2048 <<< (64 * k))

/-- Byte j of limb k of a value, little-endian (20_memory.md R58). -/
def limbByte (x : Val) (k j : Nat) : Byte := x.extractLsb' (64 * k + 8 * j) 8

/-- The number of 1 bits among the `k` least significant bits of `x`. -/
def popcountBelow (x : Val) : Nat → Nat
  | 0 => 0
  | k + 1 => popcountBelow x k + (x.getLsbD k).toNat

/-- `popcount(x)` (00_scope.md R10). -/
def popcount (x : Val) : Nat := popcountBelow x Config.width

/-! ### The value registers -/

/-- What value register `x` holds (10_state.md R21). -/
def State.val (s : State) : Reg → Val
  | .a => s.a
  | .b => s.b
  | .r => s.r

/-- The limbs of value register `x` written since reset (log entry 6). -/
def State.marks (s : State) : Reg → BitVec 32
  | .a => s.written.a
  | .b => s.written.b
  | .r => s.written.r

/-- `X <- v` by a command: the register takes `v`, and all its limbs are now written. -/
def State.setVal (s : State) (x : Reg) (v : Val) : State :=
  match x with
  | .a => { s with a := v, written := { s.written with a := BitVec.allOnes 32 } }
  | .b => { s with b := v, written := { s.written with b := BitVec.allOnes 32 } }
  | .r => { s with r := v, written := { s.written with r := BitVec.allOnes 32 } }

/-- `limb(X, k) <- v` by the host (20_memory.md R54): that limb is now written. -/
def State.writeLimb (s : State) (x : Reg) (k : Nat) (v : Word) : State :=
  match x with
  | .a => { s with a := setLimb s.a k v, written := { s.written with a := s.written.a ||| BitVec.twoPow 32 k } }
  | .b => { s with b := setLimb s.b k v, written := { s.written with b := s.written.b ||| BitVec.twoPow 32 k } }
  | .r => { s with r := setLimb s.r k v, written := { s.written with r := s.written.r ||| BitVec.twoPow 32 k } }

/-- Value register `x` may be read by a command: always, unless STRICT_UNWRITTEN is true and a limb of it
has not been written since reset (10_state.md R24; log entry 6). -/
def State.readable (s : State) (x : Reg) : Bool :=
  !s.cfg.strictUnwritten || s.marks x == BitVec.allOnes 32

/-- Limb `k` of value register `x` may be read by the host (10_state.md R24; log entry 6). -/
def State.limbReadable (s : State) (x : Reg) (k : Nat) : Bool :=
  !s.cfg.strictUnwritten || (s.marks x).getLsbD k

/-! ### The addition counter -/

/-- `CNT <- (CNT + 1) mod 2^CNT_W`, once per counted addition (10_state.md R26; 41_add.md R131). -/
def tick (c : Config) (cnt : Word) : Word := BitVec.ofNat 64 ((cnt.toNat + 1) % 2 ^ c.cntW.val)

/-- CNT after `k` counted additions; with none it is as it was. -/
def ticks (c : Config) (k : Nat) (cnt : Word) : Word :=
  if k = 0 then cnt else BitVec.ofNat 64 ((cnt.toNat + k) % 2 ^ c.cntW.val)

/-! ### Completing and faulting -/

/-- A command that passes every check ends with `ST.CODE <- 0`, STICKY kept (60_exceptions.md R272;
10_state.md R27). -/
def complete (s : State) : Answer := .next { s with st := withCode s.st 0 }

/-- `raise Fault(k)`: CODE takes k, STICKY is set, nothing else changes (60_exceptions.md R273). There
is no handler to go to and nothing to return from (R275). -/
def raise (k : FaultCode) (s : State) : Answer := .next { s with st := withSticky (withCode s.st k.code) }

/-- `Emit`, in order, of a command's bytes: OUT grows by them (00_scope.md R10; 20_memory.md R68). -/
def State.emit (s : State) (bytes : List Byte) : State := { s with out := s.out ++ bytes }

/-! ### Reset -/

/-- The reset input is asserted (70_reset_and_hazards.md R300, R301): the reset state, whether or not a command
was executing. The parameters are configuration (10_state.md R36); the accesses still to come and the words
already given belong to the host (log entry 8). -/
def State.applyReset (s : State) : State :=
  { State.reset with cfg := s.cfg, pending := s.pending, returned := s.returned }

end Sys2Proof.Machine
end

