-- ==== Sys2Proof/Machine/Operands.lean ====
section
/-! DEFINITION. The operand forms: value registers read when the command starts (10_state.md R22), and the uses of
IMM (30_encoding.md R92). -/

namespace Sys2Proof.Machine

open Sys2Proof

/-- The command reads value register `x` when it starts and goes on with what it holds (10_state.md R22).
With STRICT_UNWRITTEN true, reading a register not written since reset is a fault of the model (R24;
log entry 7). -/
def withVal (x : Reg) (s : State) (k : Val → Answer) : Answer :=
  if s.readable x then k (s.val x) else .fault (.unwrittenRegister x)

/-- The command reads A and B when it starts (10_state.md R22). -/
def withAB (s : State) (k : Val → Val → Answer) : Answer :=
  withVal .a s fun x => withVal .b s fun y => k x y

/-- LDI's use of IMM: `zext_2048(IMM)` (30_encoding.md R92). -/
def immValue (imm : Word) : Val := imm.setWidth 2048

/-- BIT's and POW2's use of IMM: an unsigned bit index, legal when below 2048 (30_encoding.md R92). -/
def indexLegal (imm : Word) : Bool := decide (imm.toNat < Config.width)

end Sys2Proof.Machine
end

