-- ==== Sys2Proof/Machine/Adder.lean ====
section
/-! DEFINITION. The multi-limb adder with carry propagation, the counted addition primitive, and ADD (41_add.md). -/

namespace Sys2Proof.Machine

open Sys2Proof

/-- What one limb step of the adder gives. -/
structure LimbSum where
  sum   : Word
  carry : Bool
deriving DecidableEq, Repr

/-- `LimbAdd(x_i, y_i, c_i)`, with the source's two-case carry check (41_add.md R130). -/
def limbAdd (x y : Word) (c : Bool) : LimbSum :=
  let sum := x + y + (BitVec.ofBool c).setWidth 64
  ⟨sum, if c then decide (sum ≤ y) else decide (sum < x)⟩

/-- A wrapped sum with the carry out of its top limb. -/
structure ValSum where
  sum   : Val
  carry : Bool
deriving DecidableEq, Repr

/-- The adder after limbs 0 to k-1, the carry into limb 0 being 0 (41_add.md R131). -/
def addLimbs (x y : Val) : Nat → ValSum
  | 0 => ⟨0, false⟩
  | k + 1 =>
    let low := addLimbs x y k
    let step := limbAdd (limb x k) (limb y k) low.carry
    ⟨setLimb low.sum k step.sum, step.carry⟩

/-- What `AddW` gives: the wrapped sum, the carry out of limb 31, and CNT after the addition. -/
structure Addition where
  sum   : Val
  carry : Bool
  cnt   : Word
deriving DecidableEq, Repr

/-- `AddW(x, y)`, the counted 2048-bit addition: one count per call (41_add.md R131). -/
def addW (cfg : Config) (x y : Val) (cnt : Word) : Addition :=
  let total := addLimbs x y Config.limbs
  ⟨total.sum, total.carry, tick cfg cnt⟩

/-- `ADD`: R takes the wrapped sum, the carry is discarded (41_add.md R133). -/
def execAdd (s : State) : Answer :=
  withAB s fun x y =>
    let t := addW s.cfg x y s.cnt
    complete { s.setVal .r t.sum with cnt := t.cnt }

end Sys2Proof.Machine
end

