-- ==== Sys2Proof/Machine/BitHelpers.lean ====
section
/-! DEFINITION. The leading-zero detector and the bit helpers: LZC, MSB, BIT, POW2 (46_bit_helpers.md). -/

namespace Sys2Proof.Machine

open Sys2Proof

/-- The number of consecutive 0 bits of `x` from bit k-1 downward (46_bit_helpers.md R240). -/
def lzcBelow (x : Val) : Nat → Nat
  | 0 => 0
  | k + 1 => if x.getLsbD k then 0 else lzcBelow x k + 1

/-- `lzc(x)`: consecutive 0 bits from bit 2047 downward; 2048 when x = 0 (46_bit_helpers.md R240). -/
def lzcVal (x : Val) : Nat := lzcBelow x Config.width

/-- `msb(x) = 2047 - lzc(x)`, for x ≠ 0 only (46_bit_helpers.md R240). -/
def msbVal (x : Val) : Nat := 2047 - lzcVal x

/-- `2^i`, built by setting one bit, with no addition (46_bit_helpers.md R244; 44_div.md R190). -/
def pow2Val (i : Nat) : Val := BitVec.ofNat 2048 (2 ^ i)

/-- `LZC`: `N <- zext_64(lzc(A))` (46_bit_helpers.md R241). -/
def execLzc (s : State) : Answer :=
  withVal .a s fun x => complete { s with n := BitVec.ofNat 64 (lzcVal x) }

/-- `MSB`: ZERO_OPERAND when A = 0, else `N <- zext_64(msb(A))` (46_bit_helpers.md R242). -/
def execMsb (s : State) : Answer :=
  withVal .a s fun x =>
    if x = 0 then raise .zeroOperand s else complete { s with n := BitVec.ofNat 64 (msbVal x) }

/-- `BIT n`: BAD_INDEX when IMM ≥ 2048, else `F <- A[IMM]` (46_bit_helpers.md R243). -/
def execBit (idx : Word) (s : State) : Answer :=
  withVal .a s fun x =>
    if indexLegal idx then complete { s with f := flagOf (x.getLsbD idx.toNat) } else raise .badIndex s

/-- `POW2 n`: BAD_INDEX when IMM ≥ 2048, else `R <- 2^IMM` (46_bit_helpers.md R244). -/
def execPow2 (idx : Word) (s : State) : Answer :=
  if indexLegal idx then complete (s.setVal .r (pow2Val idx.toNat)) else raise .badIndex s

end Sys2Proof.Machine
end

