-- ==== Sys2Proof/Machine/Compare.lean ====
section
/-! DEFINITION. Construction, register move and comparison: LDI, MOV, LT, EQ (40_construction_compare.md). -/

namespace Sys2Proof.Machine

open Sys2Proof

/-- `Eq` on the limbs below `k` (40_construction_compare.md R114). -/
def eqBelow (x y : Val) : Nat → Bool
  | 0 => true
  | k + 1 => limb x k == limb y k && eqBelow x y k

/-- `Lt` on the limbs below `k`, from the most significant down: the first differing pair decides
(40_construction_compare.md R114). -/
def ltBelow (x y : Val) : Nat → Bool
  | 0 => false
  | k + 1 => if limb x k != limb y k then (limb x k).ult (limb y k) else ltBelow x y k

/-- `Eq(x, y)`: all 32 limbs pairwise equal (40_construction_compare.md R114). -/
def eqVal (x y : Val) : Bool := eqBelow x y Config.limbs

/-- `Lt(x, y)` (40_construction_compare.md R114). -/
def ltVal (x y : Val) : Bool := ltBelow x y Config.limbs

/-- `x <= y` on values (40_construction_compare.md R115). -/
def leVal (x y : Val) : Bool := ltVal x y || eqVal x y

/-- `LDI d, imm` (40_construction_compare.md R110). -/
def execLdi (d : Reg) (imm : Word) (s : State) : Answer := complete (s.setVal d (immValue imm))

/-- `MOV d, s` (40_construction_compare.md R111). -/
def execMov (d src : Reg) (s : State) : Answer := withVal src s fun v => complete (s.setVal d v)

/-- `LT`: `F <- Lt(A, B)` (40_construction_compare.md R112). -/
def execLt (s : State) : Answer := withAB s fun x y => complete { s with f := flagOf (ltVal x y) }

/-- `EQ`: `F <- Eq(A, B)` (40_construction_compare.md R113). -/
def execEq (s : State) : Answer := withAB s fun x y => complete { s with f := flagOf (eqVal x y) }

end Sys2Proof.Machine
end

