-- ==== Sys2Proof/Machine/Decimal.lean ====
section
/-! DEFINITION. The decimal converter, which extracts digits by counted additions and comparisons alone, and PRINT
(45_decimal.md). -/

namespace Sys2Proof.Machine

open Sys2Proof

/-- A value with CNT after the additions that made it. -/
structure Counted where
  val : Val
  cnt : Word
deriving DecidableEq, Repr

/-- `Times10(p)`: 2p, 4p, 4p, 8p, 10p, five counted additions (45_decimal.md R210). -/
def times10 (cfg : Config) (p : Val) (cnt : Word) : Counted :=
  let t := addW cfg p p cnt
  let u := addW cfg t.sum t.sum t.cnt
  let v := addW cfg t.sum t.sum u.cnt
  let w := addW cfg u.sum v.sum v.cnt
  let r := addW cfg w.sum t.sum w.cnt
  ⟨r.sum, r.cnt⟩

/-- The power table: `top` is P[K], `below` is P[K-1] down to P[0] (45_decimal.md R211). -/
structure PowerTable where
  top   : Val
  below : List Val
  cnt   : Word
deriving DecidableEq, Repr

/-- The precompute loop, with `fuel` powers still allowed: while P[K] ≤ v, one more power (45_decimal.md R211). -/
def growTable (cfg : Config) (v : Val) : Nat → PowerTable → PowerTable
  | 0, tbl => tbl
  | fuel + 1, tbl =>
    if leVal tbl.top v then
      let p := times10 cfg tbl.top tbl.cnt
      growTable cfg v fuel ⟨p.val, tbl.top :: tbl.below, p.cnt⟩
    else tbl

/-- The table after the precompute: P[0] = 1 is built directly (45_decimal.md R211). -/
def powerTable (cfg : Config) (v : Val) (cnt : Word) : PowerTable :=
  growTable cfg v Config.printMaxPow ⟨1, [], cnt⟩

/-- The powers P[T] down to P[0] that the digit extraction uses: `T = K` when P[K] ≤ v, else `max(K-1, 0)`
(45_decimal.md R212). -/
def PowerTable.used (tbl : PowerTable) (v : Val) : List Val :=
  if leVal tbl.top v then tbl.top :: tbl.below
  else if tbl.below = [] then [tbl.top]
  else tbl.below

/-- What the trials at one power give: the digit, the running sum, and CNT. -/
structure Digit where
  digit : Nat
  sum   : Val
  cnt   : Word
deriving DecidableEq, Repr

/-- The inner trial loop at power `p`: one counted addition a trial, stopping at the first trial that carries
out or exceeds `v` (45_decimal.md R213). At most `fuel` trials. -/
def digitTrials (cfg : Config) (v p : Val) : Nat → Digit → Digit
  | 0, d => d
  | fuel + 1, d =>
    let t := addW cfg d.sum p d.cnt
    if t.carry || ltVal v t.sum then { d with cnt := t.cnt }
    else digitTrials cfg v p fuel ⟨d.digit + 1, t.sum, t.cnt⟩

/-- At most ten trials a digit (45_decimal.md R217, R218; log entry 12). -/
def maxTrials : Nat := 10

/-- The byte emitted for a digit: `0x30 + d` (45_decimal.md R214). -/
def digitByte (d : Nat) : Byte := BitVec.ofNat 8 (0x30 + d)

/-- What a rendering gives: its bytes, most significant digit first, and CNT after it. -/
structure Rendered where
  bytes : List Byte
  cnt   : Word
deriving DecidableEq, Repr

/-- The digit extraction over the powers, highest first, from running sum `sum` (45_decimal.md R213). -/
def extractDigits (cfg : Config) (v : Val) : List Val → Val → Word → Rendered
  | [], _, cnt => ⟨[], cnt⟩
  | p :: ps, sum, cnt =>
    let d := digitTrials cfg v p maxTrials ⟨0, sum, cnt⟩
    let rest := extractDigits cfg v ps d.sum d.cnt
    ⟨digitByte d.digit :: rest.bytes, rest.cnt⟩

/-- The rendering of `v` (45_decimal.md R211, R212, R213). -/
def renderW (cfg : Config) (v : Val) (cnt : Word) : Rendered :=
  let tbl := powerTable cfg v cnt
  extractDigits cfg v (tbl.used v) 0 tbl.cnt

/-- `PRINT`: OUT gains the decimal digits of A; no register is written (45_decimal.md R216). -/
def execPrint (s : State) : Answer :=
  withVal .a s fun v =>
    let t := renderW s.cfg v s.cnt
    complete { s.emit t.bytes with cnt := t.cnt }

end Sys2Proof.Machine
end

