-- ==== Sys2Proof/Machine/Multiplier.lean ====
section
/-! DEFINITION. The shift-and-add multiplier, and MUL (43_mul.md). -/

namespace Sys2Proof.Machine

open Sys2Proof

/-- The multiplier's working state: the accumulator, the shifted multiplicand, and CNT so far (43_mul.md R170). -/
structure MulWork where
  acc : Val
  sh  : Val
  cnt : Word
deriving DecidableEq, Repr

/-- One position of the multiplier: the accumulation when its bit is set, then the doubling, each a counted
addition (43_mul.md R170). -/
def mulStep (cfg : Config) (bit : Bool) (w : MulWork) : MulWork :=
  let acc := addW cfg w.acc w.sh w.cnt
  let dbl := addW cfg w.sh w.sh (if bit then acc.cnt else w.cnt)
  ⟨if bit then acc.sum else w.acc, dbl.sum, dbl.cnt⟩

/-- The multiplier after positions 0 to k-1 of `y`: multiplicand `x`, multiplier `y` (43_mul.md R170). -/
def mulAfter (cfg : Config) (x y : Val) (cnt : Word) : Nat → MulWork
  | 0 => ⟨0, x, cnt⟩
  | k + 1 => mulStep cfg (y.getLsbD k) (mulAfter cfg x y cnt k)

/-- What `MulW` gives: the product modulo 2^2048, and CNT after it. -/
structure Product where
  val : Val
  cnt : Word
deriving DecidableEq, Repr

/-- `MulW(x, y)`: all 2048 positions, always; no early exit (43_mul.md R170, R174). -/
def mulW (cfg : Config) (x y : Val) (cnt : Word) : Product :=
  let w := mulAfter cfg x y cnt Config.mulSteps
  ⟨w.acc, w.cnt⟩

/-- `MUL`: A the multiplicand, B the multiplier (43_mul.md R173). -/
def execMul (s : State) : Answer :=
  withAB s fun x y =>
    let p := mulW s.cfg x y s.cnt
    complete { s.setVal .r p.val with cnt := p.cnt }

end Sys2Proof.Machine
end

