-- ==== Sys2Proof/Machine/Divider.lean ====
section
/-! DEFINITION. The binary long-division sequencer, and DIV (44_div.md). -/

namespace Sys2Proof.Machine

open Sys2Proof

/-- What `DivW` gives: the quotient, and CNT after it. -/
structure Quotient where
  val : Val
  cnt : Word
deriving DecidableEq, Repr

/-- The divider's loop for the bit indices below `k`, highest first, with partial quotient `q` (44_div.md
R190). The candidate is one counted addition; the product `b · c` is multiplied out and counted; the
comparison with `a` is on the exact product over the naturals (R191). An exact hit ends the loop. -/
def divLoop (cfg : Config) (a b : Val) : Nat → Val → Word → Quotient
  | 0, q, cnt => ⟨q, cnt⟩
  | i + 1, q, cnt =>
    let cand := addW cfg q (pow2Val i) cnt
    let prod := mulW cfg b cand.sum cand.cnt
    let exact := b.toNat * cand.sum.toNat
    if exact < a.toNat then divLoop cfg a b i cand.sum prod.cnt
    else if exact = a.toNat then ⟨cand.sum, prod.cnt⟩
    else divLoop cfg a b i q prod.cnt

/-- `DivW(a, b)` for b ≠ 0 (44_div.md R190): zero at once when a < b, else the loop from
`i0 = msb(a) - msb(b)` down to 0. -/
def divW (cfg : Config) (a b : Val) (cnt : Word) : Quotient :=
  if ltVal a b then ⟨0, cnt⟩ else divLoop cfg a b (msbVal a - msbVal b + 1) 0 cnt

/-- `DIV`: DIVZERO when B = 0, before any other work, else the quotient into R (44_div.md R193, R194). -/
def execDiv (s : State) : Answer :=
  withAB s fun x y =>
    if y = 0 then raise .divZero s
    else
      let q := divW s.cfg x y s.cnt
      complete { s.setVal .r q.val with cnt := q.cnt }

end Sys2Proof.Machine
end

