-- ==== Sys2Proof/Machine/Subtractor.lean ====
section
/-! DEFINITION. The multi-limb subtractor with borrow propagation, and SUB (42_sub.md). -/

namespace Sys2Proof.Machine

open Sys2Proof

/-- What one limb step of the subtractor gives. -/
structure LimbDiff where
  diff   : Word
  borrow : Bool
deriving DecidableEq, Repr

/-- `LimbSub(x_i, y_i, b_i)`, the borrow test being exact, over the naturals (42_sub.md R150). -/
def limbSub (x y : Word) (b : Bool) : LimbDiff :=
  ⟨x - y - (BitVec.ofBool b).setWidth 64, decide (x.toNat < y.toNat + b.toNat)⟩

/-- A wrapped difference with the borrow out of its top limb. -/
structure ValDiff where
  diff   : Val
  borrow : Bool
deriving DecidableEq, Repr

/-- The subtractor after limbs 0 to k-1 (42_sub.md R151). -/
def subLimbs (x y : Val) : Nat → ValDiff
  | 0 => ⟨0, false⟩
  | k + 1 =>
    let low := subLimbs x y k
    let step := limbSub (limb x k) (limb y k) low.borrow
    ⟨setLimb low.diff k step.diff, step.borrow⟩

/-- `SubW(x, y)`: uncounted, the borrow out of limb 31 discarded (42_sub.md R151). -/
def subW (x y : Val) : Val := (subLimbs x y Config.limbs).diff

/-- `SUB`: underflow wraps and is not reported (42_sub.md R152, R154). -/
def execSub (s : State) : Answer := withAB s fun x y => complete (s.setVal .r (subW x y))

end Sys2Proof.Machine
end

