-- ==== Sys2Proof/Machine/System.lean ====
section
/-! DEFINITION. NOP and RDCNT (47_system.md). -/

namespace Sys2Proof.Machine

open Sys2Proof

/-- `NOP`: no state changes except `ST.CODE <- 0` (47_system.md R260). -/
def execNop (s : State) : Answer := complete s

/-- `RDCNT`: `N <- zext_64(CNT)` (47_system.md R261). -/
def execRdcnt (s : State) : Answer := complete { s with n := s.cnt }

end Sys2Proof.Machine
end

