-- ==== Sys2Proof/Machine/Dispatch.lean ====
section
/-! DEFINITION. The dispatcher: one arm per command of the opcode map (30_encoding.md R85), in its order. -/

namespace Sys2Proof.Machine

open Sys2Proof

def exec (i : Instr) (s : State) : Host.Outcome State Fault Refusal :=
  match i with
  | .nop => Sys2Proof.Machine.execNop s
  | .ldi d imm => Sys2Proof.Machine.execLdi d imm s
  | .mov d src => Sys2Proof.Machine.execMov d src s
  | .add => Sys2Proof.Machine.execAdd s
  | .sub => Sys2Proof.Machine.execSub s
  | .mul => Sys2Proof.Machine.execMul s
  | .div => Sys2Proof.Machine.execDiv s
  | .lt => Sys2Proof.Machine.execLt s
  | .eq => Sys2Proof.Machine.execEq s
  | .lzc => Sys2Proof.Machine.execLzc s
  | .msb => Sys2Proof.Machine.execMsb s
  | .bit idx => Sys2Proof.Machine.execBit idx s
  | .pow2 idx => Sys2Proof.Machine.execPow2 idx s
  | .print => Sys2Proof.Machine.execPrint s
  | .rdcnt => Sys2Proof.Machine.execRdcnt s

end Sys2Proof.Machine
end

