-- ==== Sys2Proof/Machine/Bus.lean ====
section
/-! DEFINITION. The host bus HBUS: its reads, its writes, and the issue of a command (20_memory.md R51 to R57). -/

namespace Sys2Proof.Machine

open Sys2Proof

/-- The word address of CMD_CTRL (20_memory.md R52). -/
def cmdCtrlAddr : Nat := 0x65

/-- The value register and limb that a word address names, where it names one (20_memory.md R52). -/
def limbAt (addr : Nat) : Option (Reg × Nat) :=
  if addr < 0x20 then some (.a, addr)
  else if addr < 0x40 then some (.b, addr - 0x20)
  else if addr < 0x60 then some (.r, addr - 0x40)
  else none

/-- `MemRead(addr, 8)` (20_memory.md R53). -/
def memRead (s : State) (addr : Nat) : Word :=
  if addr < 0x20 then limb s.a addr
  else if addr < 0x40 then limb s.b (addr - 0x20)
  else if addr < 0x60 then limb s.r (addr - 0x40)
  else if addr = 0x60 then s.f.setWidth 64
  else if addr = 0x61 then s.n
  else if addr = 0x62 then s.st
  else if addr = 0x63 then s.cnt
  else if addr = 0x64 then s.cmdImm
  else 0

/-- `Issue(v)`: decode with `IMM = CMD_IMM`, then run the command, or raise ILLEGAL (20_memory.md R57;
30_encoding.md R84). -/
def issue (v : Word) (s : State) : Answer :=
  match decode v s.cmdImm with
  | .ok i => exec i s
  | .error _ => raise .illegal s

/-- `MemWrite(addr, 8, v)` (20_memory.md R54). -/
def memWrite (addr : Nat) (v : Word) (s : State) : Answer :=
  if addr < 0x20 then .next (s.writeLimb .a addr v)
  else if addr < 0x40 then .next (s.writeLimb .b (addr - 0x20) v)
  else if addr < 0x60 then .next (s.writeLimb .r (addr - 0x40) v)
  else if addr = 0x64 then .next { s with cmdImm := v }
  else if addr = cmdCtrlAddr then issue v s
  else .next s

/-- The word address fits the HADDR_W address bits (20_memory.md R51; log entry 3). -/
def State.onBus (s : State) (addr : Nat) : Bool := decide (addr < 2 ^ s.cfg.haddrW)

/-- The word at `addr` goes to the host; a read has no side effect on the block (20_memory.md R53; log entry 5). -/
def deliver (addr : Nat) (s : State) : Answer := .next { s with returned := s.returned ++ [memRead s addr] }

/-- A host read. With STRICT_UNWRITTEN true, reading a limb not written since reset is a fault of the model
(10_state.md R24; log entry 6). -/
def hostRead (addr : Nat) (s : State) : Answer :=
  if s.onBus addr then
    match limbAt addr with
    | some (x, k) => if s.limbReadable x k then deliver addr s else .fault (.unwrittenRegister x)
    | none => deliver addr s
  else .fault .addressOutsideBus

/-- A host write (20_memory.md R54). -/
def hostWrite (addr : Nat) (v : Word) (s : State) : Answer :=
  if s.onBus addr then memWrite addr v s else .fault .addressOutsideBus

/-- One access of the outside world (20_memory.md R62; 70_reset_and_hazards.md R300, R301). -/
def access (acc : HostAccess) (s : State) : Answer :=
  match acc with
  | .read addr => hostRead addr s
  | .write addr v => hostWrite addr v s
  | .reset _ => .next s.applyReset

/-- One step of the machine: the oldest waiting access takes effect (20_memory.md R62). With none waiting the
block is idle and keeps its state (60_exceptions.md R282; log entry 4). -/
def hostStep (s : State) : Answer :=
  match s.pending with
  | [] => .next s
  | acc :: rest => access acc { s with pending := rest }

/-- The host's next access issues the command of a table word: CMD_IMM holds its IMM and its CTRL is written to
CMD_CTRL (30_encoding.md R80; log entry 11). -/
def State.withTableCommand (s : State) (nbits w : Nat) : State :=
  { s with
    cmdImm := tableImm nbits w
    pending := .write cmdCtrlAddr (tableCtrl nbits w) :: s.pending }

/-- The commands of a list, one after another, as a pseudo-instruction expands (30_encoding.md R91; 00_scope.md
R11). -/
def execAll : List Instr → State → Answer
  | [], s => .next s
  | i :: is, s =>
    match exec i s with
    | .next t => execAll is t
    | .fault r => .fault r
    | .refused r => .refused r

end Sys2Proof.Machine
end

