-- ==== Sys2Proof/Machine/Step.lean ====
section
/-! DEFINITION. The step function and the placing of a command where the step takes its next one (log entries 4
and 11). -/

namespace Sys2Proof.Machine

open Sys2Proof

/-- One host access, or one idle step (Bus.lean). -/
def step (s : State) : Host.Outcome State Fault Refusal := hostStep s

/-- `s` with the command of a table word as the host's very next access (log entry 11). -/
def State.withFetchWord (s : State) (nbits w : Nat) : State := s.withTableCommand nbits w

end Sys2Proof.Machine
end

