-- ==== Sys2Proof/Machine/Assembler.lean ====
section
/-! DEFINITION. The assembler's lines (30_encoding.md R90) and pseudo-instructions (R91), on the characters of one
line. Conventions the spec leaves open: log entry 13. -/

namespace Sys2Proof.Machine

open Sys2Proof

/-- Why the assembler refuses a line (30_encoding.md R90). -/
inductive AsmError where
  /-- The first word is no mnemonic and no pseudo-instruction. -/
  | mnemonic
  /-- The operands do not have the shape of the mnemonic's row. -/
  | shape
  /-- A register operand is not A, B or R. -/
  | register
  /-- A number operand is malformed, negative, or does not fit 0..2^64-1. -/
  | number
deriving DecidableEq, Repr

/-- Blanks between words (log entry 13). -/
def isBlank (c : Char) : Bool := c == ' ' || c == '\t'

/-- Blanks at both ends taken off. -/
def trimBlanks (cs : List Char) : List Char :=
  ((cs.dropWhile isBlank).reverse.dropWhile isBlank).reverse

/-- Text after `;` is a comment (30_encoding.md R90). -/
def dropComment (cs : List Char) : List Char := cs.takeWhile (· != ';')

/-- The comma-separated parts of an operand list (30_encoding.md R90). -/
def splitCommas : List Char → List (List Char)
  | [] => [[]]
  | c :: cs =>
    match c == ',', splitCommas cs with
    | true, parts => [] :: parts
    | false, [] => [[c]]
    | false, part :: parts => (c :: part) :: parts

/-- The operands of a line: none when nothing follows the mnemonic. -/
def operandsOf (cs : List Char) : List (List Char) :=
  match trimBlanks cs with
  | [] => []
  | text => (splitCommas text).map trimBlanks

/-- The value of a digit in base 10 or 16 (log entry 13). -/
def digitValue (base : Nat) (c : Char) : Option Nat :=
  let n := c.toNat
  let v :=
    if 0x30 ≤ n ∧ n ≤ 0x39 then some (n - 0x30)
    else if 0x61 ≤ n ∧ n ≤ 0x66 then some (n - 0x61 + 10)
    else if 0x41 ≤ n ∧ n ≤ 0x46 then some (n - 0x41 + 10)
    else none
  v.filter (· < base)

/-- The number that a digit string denotes after `acc`. -/
def readDigits (base : Nat) : List Char → Nat → Option Nat
  | [], acc => some acc
  | c :: cs, acc =>
    match digitValue base c with
    | some d => readDigits base cs (acc * base + d)
    | none => none

/-- A number: decimal, or hexadecimal with prefix `0x` (30_encoding.md R90). -/
def readNumber : List Char → Option Nat
  | '0' :: 'x' :: c :: cs => readDigits 16 (c :: cs) 0
  | c :: cs => readDigits 10 (c :: cs) 0
  | [] => none

/-- An IMM operand: the assembler refuses a number that does not fit (30_encoding.md R90;
92_eei_decisions.md D33). -/
def immOperand (cs : List Char) : Except AsmError Word :=
  match readNumber cs with
  | some v => if v < 2 ^ 64 then .ok (BitVec.ofNat 64 v) else .error .number
  | none => .error .number

/-- A register operand (30_encoding.md R90). -/
def regOperand (cs : List Char) : Except AsmError Reg :=
  if cs = "A".toList then .ok .a
  else if cs = "B".toList then .ok .b
  else if cs = "R".toList then .ok .r
  else .error .register

/-- The mnemonics without operands, and the pseudo-instructions without operands with their expansions
(30_encoding.md R90, R91). -/
def plainLines : List (List Char × List Instr) :=
  [ ("NOP".toList, [.nop]),
    ("ADD".toList, [.add]),
    ("SUB".toList, [.sub]),
    ("MUL".toList, [.mul]),
    ("DIV".toList, [.div]),
    ("LT".toList, [.lt]),
    ("EQ".toList, [.eq]),
    ("LZC".toList, [.lzc]),
    ("MSB".toList, [.msb]),
    ("PRINT".toList, [.print]),
    ("RDCNT".toList, [.rdcnt]) ]

/-- `CLR d` = `LDI d, 0` (30_encoding.md R91). -/
def clrExpansion (d : Reg) : List Instr := [.ldi d 0]

/-- `PRINTR` = `MOV A, R ; PRINT` (30_encoding.md R91). -/
def printrExpansion : List Instr := [.mov .a .r, .print]

/-- `SWAP` = `MOV R, A ; MOV A, B ; MOV B, R` (30_encoding.md R91). -/
def swapExpansion : List Instr := [.mov .r .a, .mov .a .b, .mov .b .r]

/-- `GT` = `SWAP ; LT ; SWAP` (30_encoding.md R91). -/
def gtExpansion : List Instr := swapExpansion ++ [.lt] ++ swapExpansion

/-- The pseudo-instructions without operands (30_encoding.md R91). -/
def pseudoLines : List (List Char × List Instr) :=
  [ ("PRINTR".toList, printrExpansion),
    ("SWAP".toList, swapExpansion),
    ("GT".toList, gtExpansion) ]

/-- A line whose mnemonic takes operands (30_encoding.md R90, R91). -/
def operandLine (name : List Char) (ops : List (List Char)) : Except AsmError (List Instr) :=
  if name = "LDI".toList then
    match ops with
    | [d, v] => do .ok [.ldi (← regOperand d) (← immOperand v)]
    | _ => .error .shape
  else if name = "MOV".toList then
    match ops with
    | [d, src] => do .ok [.mov (← regOperand d) (← regOperand src)]
    | _ => .error .shape
  else if name = "BIT".toList then
    match ops with
    | [v] => do .ok [.bit (← immOperand v)]
    | _ => .error .shape
  else if name = "POW2".toList then
    match ops with
    | [v] => do .ok [.pow2 (← immOperand v)]
    | _ => .error .shape
  else if name = "CLR".toList then
    match ops with
    | [d] => do .ok (clrExpansion (← regOperand d))
    | _ => .error .shape
  else .error .mnemonic

/-- The commands that one line of assembly text stands for (30_encoding.md R90, R91); a line of blanks and
comment stands for none (log entry 13). -/
def assembleLine (line : String) : Except AsmError (List Instr) :=
  let text := trimBlanks (dropComment line.toList)
  let name := text.takeWhile (!isBlank ·)
  let ops := operandsOf (text.dropWhile (!isBlank ·))
  if name = [] then .ok []
  else
    match (plainLines ++ pseudoLines).lookup name with
    | some is => if ops = [] then .ok is else .error .shape
    | none => operandLine name ops

/-- The CTRL words and immediates that one line encodes as (30_encoding.md R90). -/
def assembleWords (line : String) : Except AsmError (List Encoded) :=
  (assembleLine line).map (·.map encode)

end Sys2Proof.Machine
end

