-- ==== Sys2Proof/Reference.lean ====
section
/-! DEFINITION. What the spec's rules say in closed form, for statements to compare the machine's commands with:
decimal digits (45_decimal.md) and the counted additions of a division (44_div.md R192). The machine does not use this
file. -/

namespace Sys2Proof.Reference

open Sys2Proof Sys2Proof.Machine

/-- The decimal digits that stand for `v`, most significant first, with no leading zeros, or "0" for zero
(45_decimal.md R217). -/
def decimalDigits (v : Nat) : List Nat := if v = 0 then [0] else (Nat.digits 10 v).reverse

/-- The number of decimal digits of `v`, none for zero: `L + 1` of 45_decimal.md R212. -/
def numDigits (v : Nat) : Nat := (Nat.digits 10 v).length

/-- The counted additions of rendering `v`: `5 K + (T + 1) + digitsum(v)` (45_decimal.md R215), with
`K = min(L + 1, 616)` and `T + 1` digits (R212). -/
def printAdditions (v : Nat) : Nat :=
  5 * min (numDigits v) 616 + (decimalDigits v).length + (decimalDigits v).sum

/-- The candidate of the divider's iteration `i`, for the quotient `q`: the bits of `q` above `i`, and bit `i`
(44_div.md R190). -/
def divCandidate (q i : Nat) : Nat := q / 2 ^ (i + 1) * 2 ^ (i + 1) + 2 ^ i

/-- The first iteration, `i0 = msb(a) - msb(b)` (44_div.md R190). -/
def divFirst (a b : Nat) : Nat := Nat.log2 a - Nat.log2 b

/-- The last iteration executed: the one whose exact product equals `a` when there is one, which is the lowest set
bit of an exact quotient, else 0 (44_div.md R192). -/
def divLast (a b : Nat) : Nat := if b ∣ a then padicValNat 2 (a / b) else 0

/-- The counted additions of a division with b ≠ 0 (44_div.md R192): none when a < b, else
`1 + 2048 + popcount(c_i)` for every iteration executed. -/
def divAdditions (a b : Nat) : Nat :=
  if a < b then 0
  else
    ∑ i ∈ Finset.Icc (divLast a b) (divFirst a b),
      (1 + 2048 + popcount (BitVec.ofNat 2048 (divCandidate (a / b) i)))

end Sys2Proof.Reference
end

