-- ==== Sys2Proof/Safety.lean ====
section
/-! DEFINITION. What counts as a safe run, and the invariant of the machine, in the terms statements use. -/

namespace Sys2Proof.Safety

open Sys2Proof Sys2Proof.Machine

/-- No command since reset has faulted: ST.STICKY = 0 (60_exceptions.md R274). -/
def noFault (s : State) : Bool := !stSticky s.st

/-- A limb never written since reset still holds its reset zero (10_state.md R24). -/
def limbsClean (mask : BitVec 32) (x : Val) : Bool :=
  (List.range Config.limbs).all fun k => mask.getLsbD k || limb x k == 0

/-- A byte that PRINT may emit: an ASCII digit (45_decimal.md R214). -/
def isDigitByte (b : Byte) : Bool := decide (0x30 ≤ b.toNat) && decide (b.toNat ≤ 0x39)

/-- CNT fits its CNT_W bits (10_state.md R26). -/
def cntFits (s : State) : Bool := decide (s.cnt.toNat < 2 ^ s.cfg.cntW.val)

/-- The invariant of the machine: ST reads as 10_state.md R27 says, CNT fits its width (R26), an unwritten limb
reads zero (R24), and OUT holds digits alone (45_decimal.md R214). -/
def inv (s : State) : Bool :=
  stLegal s.st && cntFits s && limbsClean s.written.a s.a && limbsClean s.written.b s.b &&
    limbsClean s.written.r s.r && s.out.all isDigitByte

/-- The host asserts no reset among its waiting accesses. -/
def noResetPending (s : State) : Bool :=
  s.pending.all fun acc =>
    match acc with
    | .reset _ => false
    | .read _ => true
    | .write _ _ => true

/-- Each access of the host fits the bus, and no value register is kept from being read: then no access stops
the model (log entries 3 and 6). -/
def hostSafe (s : State) : Bool :=
  !s.cfg.strictUnwritten &&
    s.pending.all fun acc =>
      match acc with
      | .reset _ => true
      | .read addr => s.onBus addr
      | .write addr _ => s.onBus addr

end Sys2Proof.Safety
end

