-- ==== Sys2Proof/Certificates/Slice0/Obligations.lean ====
section
/-! DEFINITION. The statements of this row, each from a numbered rule of spec/ or derived from the sections it names
(OBLIGATIONS.json). A command that reads value registers is stated for readable ones: with STRICT_UNWRITTEN false every
register is readable (10_state.md R24), and what happens to an unreadable one is a statement of its own. -/

open Sys2Proof Sys2Proof.Machine Sys2Proof.Reference Sys2Proof.Safety

/-! ### Values, limbs and the primitives -/

/-- 00_scope.md R8: limb k of a value is its bits 64k+63 to 64k, and the value is the sum of its limbs at their
weights. Beside it, 20_memory.md R58: a limb is its eight bytes, little-endian, byte j of limb k holding the value's
bits from 64k + 8j up. -/
def Obligations.ValueIsSumOfLimbs : Prop :=
  ∀ x : Val,
    x.toNat = ∑ k ∈ Finset.range 32, (limb x k).toNat * 2 ^ (64 * k) ∧
      ∀ k < 32,
        (∀ i < 64, (limb x k).getLsbD i = x.getLsbD (64 * k + i)) ∧
          (limb x k).toNat = ∑ j ∈ Finset.range 8, (limbByte x k j).toNat * 2 ^ (8 * j) ∧
          ∀ j < 8, ∀ i < 8, (limbByte x k j).getLsbD i = x.getLsbD (64 * k + 8 * j + i)

/-- 40_construction_compare.md R115: the limb-wise comparator is the order of the naturals, and exactly one of
less, equal, greater holds. -/
def Obligations.ComparatorIsUnsignedOrder : Prop :=
  ∀ x y : Val,
    (eqVal x y = true ↔ x.toNat = y.toNat) ∧ (ltVal x y = true ↔ x.toNat < y.toNat) ∧
      (leVal x y = true ↔ x.toNat ≤ y.toNat) ∧ ltVal x x = false ∧
      ((ltVal x y = true ∧ eqVal x y = false ∧ ltVal y x = false) ∨
        (ltVal x y = false ∧ eqVal x y = true ∧ ltVal y x = false) ∨
        (ltVal x y = false ∧ eqVal x y = false ∧ ltVal y x = true))

/-- 41_add.md R132, R134: the two-case carry check gives the exact carry of the 65-bit sum, and the counted
addition is the wrapped sum, the exact carry out, and one count. -/
def Obligations.AdderIsExactAndCountsOnce : Prop :=
  (∀ (x y : Word) (c : Bool),
    (limbAdd x y c).sum.toNat = (x.toNat + y.toNat + c.toNat) % 2 ^ 64 ∧
      (limbAdd x y c).carry.toNat = (x.toNat + y.toNat + c.toNat) / 2 ^ 64) ∧
    ∀ (cfg : Config) (x y : Val) (cnt : Word),
      (addW cfg x y cnt).sum.toNat = (x.toNat + y.toNat) % 2 ^ 2048 ∧
        ((addW cfg x y cnt).carry = true ↔ 2 ^ 2048 ≤ x.toNat + y.toNat) ∧
        (addW cfg x y cnt).cnt.toNat = (cnt.toNat + 1) % 2 ^ cfg.cntW.val

/-- 42_sub.md R150, R153: the limb borrow step with the exact comparison, and subtraction as the difference modulo
2^2048, exact when it does not underflow. -/
def Obligations.SubtractorIsExactAndWraps : Prop :=
  (∀ (x y : Word) (b : Bool),
    ((limbSub x y b).diff.toNat : Int) = ((x.toNat : Int) - y.toNat - b.toNat) % 2 ^ 64 ∧
      ((limbSub x y b).borrow = true ↔ x.toNat < y.toNat + b.toNat) ∧
      ((limbSub x y b).borrow = true ↔ x.toNat < y.toNat ∨ (b = true ∧ x = y))) ∧
    ∀ x y : Val,
      ((subW x y).toNat : Int) = ((x.toNat : Int) - y.toNat) % 2 ^ 2048 ∧
        (y.toNat ≤ x.toNat → (subW x y).toNat = x.toNat - y.toNat) ∧
        (x.toNat < y.toNat → (subW x y).toNat = 2 ^ 2048 + x.toNat - y.toNat)

/-- 43_mul.md R171, R172: the product modulo 2^2048, by the partial products after every step, and the count 2048 +
popcount of the multiplier, whatever the multiplicand. -/
def Obligations.MultiplierComputesProductAndCounts : Prop :=
  ∀ (cfg : Config) (x y : Val) (cnt : Word),
    (mulW cfg x y cnt).val.toNat = (x.toNat * y.toNat) % 2 ^ 2048 ∧
      (∀ k ≤ 2048,
        (mulAfter cfg x y cnt k).sh.toNat = (x.toNat * 2 ^ k) % 2 ^ 2048 ∧
          (mulAfter cfg x y cnt k).acc.toNat = (x.toNat * (y.toNat % 2 ^ k)) % 2 ^ 2048) ∧
      (mulW cfg x y cnt).cnt.toNat = (cnt.toNat + (2048 + popcount y)) % 2 ^ cfg.cntW.val ∧
      popcount y ≤ 2048

/-- 44_div.md R197: the divider is floor division for every nonzero divisor. -/
def Obligations.DividerComputesFloor : Prop :=
  ∀ (cfg : Config) (a b : Val) (cnt : Word), b ≠ 0 →
    (divW cfg a b cnt).val.toNat = a.toNat / b.toNat ∧
      (divW cfg a b cnt).val.toNat * b.toNat ≤ a.toNat ∧
      a.toNat < ((divW cfg a b cnt).val.toNat + 1) * b.toNat

/-- 44_div.md R192: the divider's count is the sum over the iterations executed; their candidates have no bit below
their index, there are at most 2048 of them, and the increment is at most 6294528, which the largest value divided by 1
reaches. -/
def Obligations.DividerCountsExecutedIterations : Prop :=
  (∀ (cfg : Config) (a b : Val) (cnt : Word), b ≠ 0 →
    (divW cfg a b cnt).cnt = ticks cfg (divAdditions a.toNat b.toNat) cnt ∧
      divFirst a.toNat b.toNat + 1 ≤ 2048 ∧
      (b.toNat ≤ a.toNat → ∀ i ≤ divFirst a.toNat b.toNat,
        popcount (BitVec.ofNat 2048 (divCandidate (a.toNat / b.toNat) i)) ≤ 2048 - i) ∧
      divAdditions a.toNat b.toNat ≤ 6294528) ∧
    divAdditions (2 ^ 2048 - 1) 1 = 6294528

/-- 45_decimal.md R210: Times10 is ten times, in five counted additions. -/
def Obligations.TimesTenCountsFive : Prop :=
  ∀ (cfg : Config) (p : Val) (cnt : Word),
    (times10 cfg p cnt).val.toNat = (10 * p.toNat) % 2 ^ 2048 ∧
      (times10 cfg p cnt).cnt.toNat = (cnt.toNat + 5) % 2 ^ cfg.cntW.val

/-- 45_decimal.md R213, R217: the trials at one power find the digit, at most 9, leave less than the power, and
count one more than the digit. The trial limit is never what ends them (log entry 12): the trial after the digit
exceeds `v`. -/
def Obligations.DigitTrialsFindTheDigit : Prop :=
  ∀ (cfg : Config) (v p sum : Val) (cnt : Word),
    0 < p.toNat → sum.toNat ≤ v.toNat → v.toNat - sum.toNat < 10 * p.toNat →
      ∃ d ≤ 9,
        digitTrials cfg v p maxTrials ⟨0, sum, cnt⟩ =
            ⟨d, BitVec.ofNat 2048 (sum.toNat + d * p.toNat), ticks cfg (d + 1) cnt⟩ ∧
          sum.toNat + d * p.toNat ≤ v.toNat ∧ v.toNat < sum.toNat + (d + 1) * p.toNat

/-- 45_decimal.md R214, R215, R217: the rendering of a value is its decimal expansion in ASCII, and counts
`5 K + (T + 1) + digitsum`. -/
def Obligations.RenderingIsDecimalExpansion : Prop :=
  ∀ (cfg : Config) (v : Val) (cnt : Word),
    (renderW cfg v cnt).bytes = (decimalDigits v.toNat).map (fun d => BitVec.ofNat 8 (0x30 + d)) ∧
      (renderW cfg v cnt).cnt = ticks cfg (printAdditions v.toNat) cnt ∧
      (decimalDigits v.toNat).length ≤ 617 ∧ ∀ d ∈ decimalDigits v.toNat, d ≤ 9

/-- 46_bit_helpers.md R240: the leading-zero count and the index of the top set bit. -/
def Obligations.LeadingZerosAndTopBit : Prop :=
  ∀ x : Val,
    lzcVal x = 2048 - Nat.size x.toNat ∧ (x = 0 → lzcVal x = 2048) ∧
      (x ≠ 0 →
        msbVal x = 2047 - lzcVal x ∧ lzcVal x ≤ 2047 ∧ x.getLsbD (msbVal x) = true ∧
          ∀ j, msbVal x < j → x.getLsbD j = false)

/-- 10_state.md R26: k counted additions add k to CNT modulo 2^CNT_W. -/
def Obligations.CounterWrapsAtItsWidth : Prop :=
  ∀ (cfg : Config) (k : Nat) (cnt : Word), cnt.toNat < 2 ^ cfg.cntW.val →
    (ticks cfg k cnt).toNat = (cnt.toNat + k) % 2 ^ cfg.cntW.val ∧
      (tick cfg)^[k] cnt = ticks cfg k cnt

/-! ### Encoding -/

/-- 30_encoding.md R80 to R85, R90: decoding an encoded command gives it back, with every operand at every value;
a command that ignores IMM decodes the same whatever the latch holds. -/
def Obligations.DecodeEncodeRoundTrip : Prop :=
  ∀ i : Instr,
    decode (encode i).busWord (encode i).imm = .ok i ∧
      ∀ imm : Word, (∃ j, decode (encode i).busWord imm = .ok j ∧ (encode j).ctrl = (encode i).ctrl) ∧
        ((∀ d v, i ≠ .ldi d v) → (∀ n, i ≠ .bit n) → (∀ n, i ≠ .pow2 n) →
          decode (encode i).busWord imm = .ok i)

/-- 30_encoding.md R85, R88: each command has one command word: the word a command was decoded from is the word it
encodes as, and so is the immediate of a command that reads it. -/
def Obligations.DecodedWordsEncodeBack : Prop :=
  ∀ (v imm : Word) (i : Instr), decode v imm = .ok i →
    (encode i).busWord = v ∧
      ((∃ d w, i = .ldi d w) ∨ (∃ n, i = .bit n) ∨ (∃ n, i = .pow2 n) → (encode i).imm = imm)

/-- 30_encoding.md R84, R85: the decoding procedure accepts exactly the words of the opcode map's match and mask
columns, with bus bits 63:32 zero and no used selector 3. -/
def Obligations.DecoderAcceptsTheOpcodeMap : Prop :=
  ∀ v imm : Word, (∃ i, decode v imm = .ok i) ↔ wellFormed v = true

/-- 30_encoding.md R84, R85, R90: words written out from the opcode map and the syntax examples decode to their
commands, and words of 95_test_vectors.md section 2.9 are refused. -/
def Obligations.WrittenOutWordsDecode : Prop :=
  decode 0b00000000000000000000000000010000 9 = .ok .add ∧
    decode 0b00000000000000000000000100000001 7 = .ok (.ldi .b 7) ∧
    decode 0b00000000000000000000100000000010 9 = .ok (.mov .a .r) ∧
    decode 0b00000000000000000000000000110011 0x64 = .ok (.pow2 100) ∧
    decode 0b00000000000000000000000000100000 9 = .ok .lt ∧
    decode 0b00000000000000000000000001000000 9 = .ok .print ∧
    decode 0b00000000000000000000000001010000 9 = .ok .rdcnt ∧
    decode 0x301 0 = .error .selector ∧ decode 0x410 0 = .error .unusedField ∧
    decode 0x3 0 = .error .opcode ∧ decode 0xFF10 0 = .error .reservedBits ∧
    decode 0x100000010 0 = .error .busHigh

/-! ### Status and faults -/

/-- 60_exceptions.md R273: a fault writes CODE and STICKY and nothing else. -/
def Obligations.FaultWritesOnlyStatus : Prop :=
  ∀ (k : FaultCode) (s : State), ∃ st : Word,
    raise k s = .next { s with st := st } ∧
      stCode st = (match k with | .illegal => 1 | .divZero => 2 | .badIndex => 3 | .zeroOperand => 4) ∧
      stSticky st = true ∧ (stLegal s.st = true → stLegal st = true)

/-- 60_exceptions.md R270: a command that ends with a nonzero CODE has changed nothing but ST; any other ends with
CODE = 0 and leaves STICKY as it was. Either way ST's reserved bits stay (10_state.md R27). -/
def Obligations.FaultsArePrecise : Prop :=
  ∀ (v : Word) (s t : State), issue v s = .next t →
    ((stCode t.st = 0 ∧ stSticky t.st = stSticky s.st) ∨
      (stCode t.st ≠ 0 ∧ stSticky t.st = true ∧ t = { s with st := t.st })) ∧
      ∀ k, 4 ≤ k → k ≠ 8 → t.st.getLsbD k = s.st.getLsbD k

/-- 60_exceptions.md R271, R272: the code each issued word leaves: ILLEGAL first, then the command's own operand
check, else zero. -/
def Obligations.StatusCodeByCause : Prop :=
  ∀ (v : Word) (s t : State), issue v s = .next t →
    stCode t.st =
      match decode v s.cmdImm with
      | .error _ => 1
      | .ok .div => if s.b = 0 then 2 else 0
      | .ok (.bit n) => if 2048 ≤ n.toNat then 3 else 0
      | .ok (.pow2 n) => if 2048 ≤ n.toNat then 3 else 0
      | .ok .msb => if s.a = 0 then 4 else 0
      | .ok _ => 0

/-- 30_encoding.md R84, 60_exceptions.md R273: a word outside the opcode map faults with ILLEGAL and changes no state
but ST, whatever the immediate. -/
def Obligations.IllegalWordFaults : Prop :=
  ∀ (v : Word) (s : State), wellFormed v = false →
    issue v s = .next { s with st := withSticky (withCode s.st 1) }

/-- 60_exceptions.md R274, 70_reset_and_hazards.md R301: STICKY, once set, is cleared by no step but a reset. -/
def Obligations.StickyStaysUntilReset : Prop :=
  ∀ s t : State, step s = .next t → stSticky s.st = true →
    stSticky t.st = true ∨ ∃ during rest, s.pending = .reset during :: rest

/-- 60_exceptions.md R274: if a run with no reset ends with STICKY clear, no command of it faulted: after every step
of it CODE is zero. The premise on the first state's ST is the part of the invariant that rules out a fault code
without STICKY. -/
def Obligations.CleanStickyMeansNoFault : Prop :=
  ∀ (n : Nat) (s t : State), noResetPending s = true → stLegal s.st = true →
    Host.Core.run Sys2Proof.core n s = .next t → noFault t = true →
    ∀ m ≤ n, ∃ u : State, Host.Core.run Sys2Proof.core m s = .next u ∧ stCode u.st = 0 ∧ noFault u = true

/-! ### The commands -/

/-- 47_system.md R260, R261: NOP changes nothing but ST.CODE; RDCNT copies CNT into N. -/
def Obligations.NopAndRdcntEffects : Prop :=
  (∀ imm, decode 0x00000000 imm = .ok .nop ∧ decode 0x00000050 imm = .ok .rdcnt) ∧
    ∀ s : State,
      exec .nop s = .next { s with st := withCode s.st 0 } ∧
        exec .rdcnt s = .next { s with n := s.cnt, st := withCode s.st 0 }

/-- 40_construction_compare.md R110: for every destination and immediate; limb 0 takes IMM and the other limbs zero.
A word with the reserved selector or a nonzero S faults with ILLEGAL. -/
def Obligations.LdiLoadsZeroExtendedImmediate : Prop :=
  (∀ imm, decode 0x00000001 imm = .ok (.ldi .a imm) ∧ decode 0x00000101 imm = .ok (.ldi .b imm) ∧
      decode 0x00000201 imm = .ok (.ldi .r imm) ∧
      ∀ (v : Word) (s : State), v.extractLsb' 0 8 = 1 → v.extractLsb' 8 2 = 3 ∨ v.extractLsb' 10 2 ≠ 0 →
        issue v s = .next { s with st := withSticky (withCode s.st 1) }) ∧
    ∀ (d : Reg) (imm : Word) (s : State), ∃ t : State,
      exec (.ldi d imm) s = .next t ∧ limb (t.val d) 0 = imm ∧
        (∀ k, 1 ≤ k → k < 32 → limb (t.val d) k = 0) ∧ (t.val d).toNat = imm.toNat ∧
        t = { s.setVal d (t.val d) with st := withCode s.st 0 }

/-- 40_construction_compare.md R111: for every destination and source, the two being one register included. A
word with a reserved selector faults with ILLEGAL. -/
def Obligations.MovCopiesRegister : Prop :=
  (∀ imm, decode 0x00000802 imm = .ok (.mov .a .r) ∧ decode 0x00000402 imm = .ok (.mov .a .b) ∧
      decode 0x00000902 imm = .ok (.mov .b .r) ∧ decode 0x00000002 imm = .ok (.mov .a .a) ∧
      ∀ (v : Word) (s : State), v.extractLsb' 0 8 = 2 → v.extractLsb' 8 2 = 3 ∨ v.extractLsb' 10 2 = 3 →
        issue v s = .next { s with st := withSticky (withCode s.st 1) }) ∧
    ∀ (d src : Reg) (s : State), s.readable src = true →
      exec (.mov d src) s = .next { s.setVal d (s.val src) with st := withCode s.st 0 } ∧
        ((s.setVal d (s.val src)).val d = s.val src ∧ (s.setVal d (s.val src)).val src = s.val src)

/-- 40_construction_compare.md R112, R113: LT and EQ set F by the order and equality of A and B. -/
def Obligations.ComparisonsSetFlag : Prop :=
  (∀ imm, decode 0x00000020 imm = .ok .lt ∧ decode 0x00000021 imm = .ok .eq) ∧
    ∀ s : State, s.readable .a = true → s.readable .b = true →
      exec .lt s = .next { s with f := if s.a.toNat < s.b.toNat then 1 else 0, st := withCode s.st 0 } ∧
        exec .eq s = .next { s with f := if s.a = s.b then 1 else 0, st := withCode s.st 0 }

/-- 41_add.md R133: R takes the sum modulo 2^2048, CNT one count; A, B, F, N and all else as they were. -/
def Obligations.AddWritesWrappedSum : Prop :=
  (∀ imm, decode 0x00000010 imm = .ok .add) ∧
    ∀ s : State, s.readable .a = true → s.readable .b = true →
      exec .add s =
        .next { s.setVal .r (BitVec.ofNat 2048 ((s.a.toNat + s.b.toNat) % 2 ^ 2048)) with
          cnt := BitVec.ofNat 64 ((s.cnt.toNat + 1) % 2 ^ s.cfg.cntW.val)
          st := withCode s.st 0 }

/-- 42_sub.md R152: R takes the difference modulo 2^2048; CNT and all else as they were. -/
def Obligations.SubWritesWrappedDifference : Prop :=
  (∀ imm, decode 0x00000011 imm = .ok .sub) ∧
    ∀ s : State, s.readable .a = true → s.readable .b = true →
      exec .sub s =
        .next { s.setVal .r (BitVec.ofInt 2048 ((s.a.toNat : Int) - s.b.toNat)) with st := withCode s.st 0 }

/-- 43_mul.md R173: R takes the product modulo 2^2048, CNT gains 2048 + popcount(B). -/
def Obligations.MulWritesWrappedProduct : Prop :=
  (∀ imm, decode 0x00000012 imm = .ok .mul) ∧
    ∀ s : State, s.readable .a = true → s.readable .b = true →
      exec .mul s =
        .next { s.setVal .r (BitVec.ofNat 2048 ((s.a.toNat * s.b.toNat) % 2 ^ 2048)) with
          cnt := BitVec.ofNat 64 ((s.cnt.toNat + (2048 + popcount s.b)) % 2 ^ s.cfg.cntW.val)
          st := withCode s.st 0 }

/-- 44_div.md R193, R194: R takes the floor quotient, CNT the additions of R192; a zero divisor is DIVZERO and changes
nothing but ST. -/
def Obligations.DivWritesFloorQuotientOrFaults : Prop :=
  (∀ imm, decode 0x00000013 imm = .ok .div) ∧
    ∀ s : State, s.readable .a = true → s.readable .b = true →
      (s.b ≠ 0 →
        exec .div s =
          .next { s.setVal .r (BitVec.ofNat 2048 (s.a.toNat / s.b.toNat)) with
            cnt := ticks s.cfg (divAdditions s.a.toNat s.b.toNat) s.cnt
            st := withCode s.st 0 }) ∧
        (s.b = 0 → exec .div s = .next { s with st := withSticky (withCode s.st 2) })

/-- 46_bit_helpers.md R241. -/
def Obligations.LzcCountsLeadingZeros : Prop :=
  (∀ imm, decode 0x00000030 imm = .ok .lzc) ∧
    ∀ s : State, s.readable .a = true →
      exec .lzc s = .next { s with n := BitVec.ofNat 64 (2048 - Nat.size s.a.toNat), st := withCode s.st 0 }

/-- 46_bit_helpers.md R242: for a nonzero A its top bit's index; ZERO_OPERAND for zero, N unchanged. -/
def Obligations.MsbFindsTopBitOrFaults : Prop :=
  (∀ imm, decode 0x00000031 imm = .ok .msb) ∧
    ∀ s : State, s.readable .a = true →
      (s.a ≠ 0 →
        exec .msb s = .next { s with n := BitVec.ofNat 64 (Nat.log2 s.a.toNat), st := withCode s.st 0 }) ∧
        (s.a = 0 → exec .msb s = .next { s with st := withSticky (withCode s.st 4) })

/-- 46_bit_helpers.md R243: the tested bit goes to F; BAD_INDEX from 2048 up, F unchanged. -/
def Obligations.BitTestsBitOrFaults : Prop :=
  (∀ imm, decode 0x00000032 imm = .ok (.bit imm)) ∧
    ∀ (idx : Word) (s : State), s.readable .a = true →
      (idx.toNat < 2048 →
        exec (.bit idx) s =
            .next { s with f := BitVec.ofBool (s.a.toNat.testBit idx.toNat), st := withCode s.st 0 } ∧
          s.a.toNat.testBit idx.toNat = (limb s.a (idx.toNat / 64)).getLsbD (idx.toNat % 64)) ∧
        (2048 ≤ idx.toNat → exec (.bit idx) s = .next { s with st := withSticky (withCode s.st 3) })

/-- 46_bit_helpers.md R244: R takes the power of two; BAD_INDEX from 2048 up, R unchanged. No register is read, so no
premise is needed. -/
def Obligations.Pow2SetsOneBitOrFaults : Prop :=
  (∀ imm, decode 0x00000033 imm = .ok (.pow2 imm)) ∧
    ∀ (idx : Word) (s : State),
      (idx.toNat < 2048 →
        ∃ t : State, exec (.pow2 idx) s = .next t ∧ t.r.toNat = 2 ^ idx.toNat ∧
          t = { s.setVal .r t.r with st := withCode s.st 0 }) ∧
        (2048 ≤ idx.toNat → exec (.pow2 idx) s = .next { s with st := withSticky (withCode s.st 3) })

/-- 45_decimal.md R216: OUT gains the decimal digits of A, CNT the additions of R215; no register is written. -/
def Obligations.PrintEmitsDecimalDigits : Prop :=
  (∀ imm, decode 0x00000040 imm = .ok .print) ∧
    ∀ s : State, s.readable .a = true →
      exec .print s =
        .next { s with
          out := s.out ++ (decimalDigits s.a.toNat).map (fun d => BitVec.ofNat 8 (0x30 + d))
          cnt := ticks s.cfg (printAdditions s.a.toNat) s.cnt
          st := withCode s.st 0 }

/-! ### Frames and whole-machine rules -/

/-- 40_construction_compare.md R116: LDI, MOV, LT and EQ change no register their rules do not name: LDI and MOV the
destination alone, LT and EQ the flag alone; CNT, N, OUT and CMD_IMM never. Every bus word outside the destination's
limbs, F and ST reads as before. -/
def Obligations.ConstructionAndCompareFrame : Prop :=
  ∀ (i : Instr) (s t : State), exec i s = .next t →
    (∀ d, ((∃ imm, i = .ldi d imm) ∨ ∃ src, i = .mov d src) →
      (∀ x, x ≠ d → t.val x = s.val x ∧ t.marks x = s.marks x) ∧ t.f = s.f ∧ t.n = s.n ∧ t.cnt = s.cnt ∧
        t.out = s.out ∧ t.cmdImm = s.cmdImm ∧
        ∀ addr, addr ≠ 0x62 → (∀ k, limbAt addr ≠ some (d, k)) → memRead t addr = memRead s addr) ∧
      (i = .lt ∨ i = .eq →
        (∀ x, t.val x = s.val x ∧ t.marks x = s.marks x) ∧ t.n = s.n ∧ t.cnt = s.cnt ∧ t.out = s.out ∧
          t.cmdImm = s.cmdImm ∧ ∀ addr, addr ≠ 0x60 → addr ≠ 0x62 → memRead t addr = memRead s addr)

/-- 41_add.md R133, 42_sub.md R152, 43_mul.md R173, 44_div.md R195: the arithmetic commands write R, ST and CNT alone,
SUB not even CNT: A, B, F, N, OUT, CMD_IMM and every other bus word read as before. -/
def Obligations.ArithmeticFrame : Prop :=
  ∀ (i : Instr) (s t : State), i = .add ∨ i = .sub ∨ i = .mul ∨ i = .div → exec i s = .next t →
    t.a = s.a ∧ t.b = s.b ∧ t.f = s.f ∧ t.n = s.n ∧ t.out = s.out ∧ t.cmdImm = s.cmdImm ∧
      (i = .sub → t.cnt = s.cnt) ∧
      ∀ addr, (∀ k, limbAt addr ≠ some (.r, k)) → addr ≠ 0x62 → addr ≠ 0x63 →
        memRead t addr = memRead s addr

/-- 46_bit_helpers.md R245: LZC and MSB change N and ST alone, BIT F and ST alone, POW2 R and ST alone; none changes
CNT. -/
def Obligations.BitHelperFrame : Prop :=
  ∀ (i : Instr) (s t : State), exec i s = .next t →
    (i = .lzc ∨ i = .msb → t = { s with n := t.n, st := t.st }) ∧
      ((∃ n, i = .bit n) → t = { s with f := t.f, st := t.st }) ∧
      ((∃ n, i = .pow2 n) → t = { s with r := t.r, st := t.st, written := t.written } ∧
        t.marks .a = s.marks .a ∧ t.marks .b = s.marks .b)

/-- 45_decimal.md R216, 47_system.md R260, R261: PRINT leaves every register but CNT and ST, NOP all but ST, RDCNT all
but N and ST; the bus words outside those read as before. -/
def Obligations.PrintAndSystemFrame : Prop :=
  ∀ (i : Instr) (s t : State), exec i s = .next t →
    (i = .print →
      t.a = s.a ∧ t.b = s.b ∧ t.r = s.r ∧ t.f = s.f ∧ t.n = s.n ∧ t.cmdImm = s.cmdImm ∧
        t.written = s.written ∧ ∀ addr, addr ≠ 0x62 → addr ≠ 0x63 → memRead t addr = memRead s addr) ∧
      (i = .nop → t = { s with st := t.st } ∧ ∀ addr, addr ≠ 0x62 → memRead t addr = memRead s addr) ∧
      (i = .rdcnt →
        t = { s with n := t.n, st := t.st } ∧
          ∀ addr, addr ≠ 0x61 → addr ≠ 0x62 → memRead t addr = memRead s addr)

/-- 10_state.md R20, R22, R25, R26, R28, R29, R31: which commands may change A, B, R, F, N, CNT and OUT; CMD_IMM, the
parameters and the host's own lists are changed by no command. -/
def Obligations.WritersOfEachRegister : Prop :=
  ∀ (i : Instr) (s t : State), exec i s = .next t →
    (t.a ≠ s.a → (∃ imm, i = .ldi .a imm) ∨ ∃ src, i = .mov .a src) ∧
      (t.b ≠ s.b → (∃ imm, i = .ldi .b imm) ∨ ∃ src, i = .mov .b src) ∧
      (t.r ≠ s.r →
        i = .add ∨ i = .sub ∨ i = .mul ∨ i = .div ∨ (∃ n, i = .pow2 n) ∨ (∃ imm, i = .ldi .r imm) ∨
          ∃ src, i = .mov .r src) ∧
      (t.f ≠ s.f → i = .lt ∨ i = .eq ∨ ∃ n, i = .bit n) ∧
      (t.n ≠ s.n → i = .lzc ∨ i = .msb ∨ i = .rdcnt) ∧
      (t.cnt ≠ s.cnt → i = .add ∨ i = .mul ∨ i = .div ∨ i = .print) ∧
      (t.out ≠ s.out → i = .print) ∧
      t.cmdImm = s.cmdImm ∧ t.cfg = s.cfg ∧ t.pending = s.pending ∧ t.returned = s.returned

/-- 10_state.md R26, R29, 60_exceptions.md R278: in every step but a reset, CNT changes only by counted additions, at
most 6294528 of them (44_div.md R192; the table of 70_reset_and_hazards.md R308), and OUT only grows, by decimal digit
bytes (45_decimal.md R214), at most 617 (R218). -/
def Obligations.CounterAndOutputOnlyGrow : Prop :=
  ∀ s t : State, step s = .next t → (∀ during rest, s.pending ≠ .reset during :: rest) →
    (∃ k ≤ 6294528, t.cnt = ticks s.cfg k s.cnt) ∧
      ∃ bytes : List Byte, t.out = s.out ++ bytes ∧ bytes.all isDigitByte = true ∧ bytes.length ≤ 617

/-- 30_encoding.md R83, R92: a command that ignores IMM gives the same result and status whatever the latch holds:
two runs that differ in CMD_IMM alone end in states that differ in CMD_IMM alone. -/
def Obligations.IgnoredImmediateDoesNotMatter : Prop :=
  ∀ (v imm : Word) (i : Instr) (s t : State), decode v s.cmdImm = .ok i →
    (∀ d w, i ≠ .ldi d w) → (∀ n, i ≠ .bit n) → (∀ n, i ≠ .pow2 n) →
    issue v s = .next t → issue v { s with cmdImm := imm } = .next { t with cmdImm := imm }

/-- 41_add.md R135: ADD commutes, two ADDs associate, and two ADDs count two either way. -/
def Obligations.AdditionCommutesAndAssociates : Prop :=
  ∀ (cfg : Config) (a b c : Val) (cnt : Word),
    (addW cfg a b cnt).sum = (addW cfg b a cnt).sum ∧
      (addW cfg (addW cfg a b cnt).sum c (addW cfg a b cnt).cnt).sum =
        (addW cfg a (addW cfg b c cnt).sum (addW cfg b c cnt).cnt).sum ∧
      (addW cfg (addW cfg a b cnt).sum c (addW cfg a b cnt).cnt).cnt = ticks cfg 2 cnt ∧
      (addW cfg a (addW cfg b c cnt).sum (addW cfg b c cnt).cnt).cnt = ticks cfg 2 cnt

/-- 42_sub.md R156: adding back what was subtracted gives the first operand, and the source's quotient identity holds
for every nonzero divisor. -/
def Obligations.SubtractThenAddRestores : Prop :=
  ∀ (cfg : Config) (a b x : Val) (cnt : Word),
    (addW cfg (subW a b) b cnt).sum = a ∧ (addW cfg x (subW a x) cnt).sum = a ∧
      (b ≠ 0 →
        let qb := (mulW cfg (divW cfg a b cnt).val b cnt).val
        (addW cfg qb (subW a qb) cnt).sum = a)

/-- 43_mul.md R175: products by 0 and 1, the product commutes, the count does not: it is 2048 + popcount of the second
operand, at most 4096. -/
def Obligations.ProductCommutesCountDoesNot : Prop :=
  ∀ (cfg : Config) (a b : Val) (cnt : Word),
    (mulW cfg a 0 cnt).val = 0 ∧ (mulW cfg a 1 cnt).val = a ∧
      (mulW cfg a b cnt).val = (mulW cfg b a cnt).val ∧
      (mulW cfg a b cnt).cnt = ticks cfg (2048 + popcount b) cnt ∧
      (mulW cfg b a cnt).cnt = ticks cfg (2048 + popcount a) cnt ∧ 2048 + popcount b ≤ 4096

/-- 30_encoding.md R91: the pseudo-instructions' expansions and their effects, with every register readable. -/
def Obligations.PseudoInstructionsDoAsNamed : Prop :=
  ∀ s : State, s.readable .a = true → s.readable .b = true → s.readable .r = true →
    (clrExpansion = fun d => [.ldi d 0]) ∧ printrExpansion = [.mov .a .r, .print] ∧
      swapExpansion = [.mov .r .a, .mov .a .b, .mov .b .r] ∧
      gtExpansion = swapExpansion ++ [.lt] ++ swapExpansion ∧
      (assembleLine "CLR A" = .ok (clrExpansion .a) ∧ assembleLine "CLR B" = .ok (clrExpansion .b) ∧
        assembleLine "CLR R" = .ok (clrExpansion .r) ∧ assembleLine "PRINTR" = .ok printrExpansion ∧
        assembleLine "SWAP" = .ok swapExpansion ∧ assembleLine "GT" = .ok gtExpansion) ∧
      (∀ d, ∃ t, execAll (clrExpansion d) s = .next t ∧ t.val d = 0) ∧
      (∃ t, execAll printrExpansion s = .next t ∧ t.a = s.r ∧
        t.out = s.out ++ (decimalDigits s.r.toNat).map (fun d => BitVec.ofNat 8 (0x30 + d))) ∧
      (∃ t, execAll swapExpansion s = .next t ∧ t.a = s.b ∧ t.b = s.a ∧ t.r = s.a ∧ t.cnt = s.cnt) ∧
      ∃ t, execAll gtExpansion s = .next t ∧ t.f = (if s.b.toNat < s.a.toNat then 1 else 0) ∧ t.a = s.a ∧
        t.b = s.b ∧ t.r = s.b ∧ t.cnt = s.cnt

/-! ### Steps and the host bus -/

/-- 20_memory.md R57, 30_encoding.md R84: when the host's next access writes a word to CMD_CTRL, the step issues that
word, at the state with the access taken from the waiting list: it is `exec` of the command the word decodes to, or
ILLEGAL for a word that decodes to none. That a step is one waiting access is the model's choice (log entry 4). -/
def Obligations.StepRunsDecodedCommand : Prop :=
  ∀ (s : State) (v : Word) (rest : List HostAccess), s.pending = .write 0x65 v :: rest → s.onBus 0x65 = true →
    step s = issue v { s with pending := rest } ∧
      (∀ i, decode v s.cmdImm = .ok i → step s = exec i { s with pending := rest }) ∧
      (wellFormed v = false →
        step s = .next { s with pending := rest, st := withSticky (withCode s.st 1) })

/-- Log entry 11: placing a table word makes it the command the very next step runs; this is the model's own way of
handing a command to the machine (30_encoding.md R80). -/
def Obligations.PlacedCommandRunsNext : Prop :=
  ∀ (s : State) (nbits w : Nat) (i : Instr), s.onBus 0x65 = true → decodeTableWord nbits w = some i →
    step (s.withFetchWord nbits w) = exec i { s with cmdImm := tableImm nbits w }

/-- 20_memory.md R52, R53: what a host read of each word gives, and that it leaves the block as it was. -/
def Obligations.HostReadDeliversTheWord : Prop :=
  ∀ (s : State) (addr : Nat) (rest : List HostAccess),
    s.pending = .read addr :: rest → s.onBus addr = true →
    (∀ x k, limbAt addr = some (x, k) → s.limbReadable x k = true) →
    ∃ w : Word,
      step s = .next { s with pending := rest, returned := s.returned ++ [w] } ∧
        (addr < 0x20 → w = limb s.a addr) ∧
        (0x20 ≤ addr → addr < 0x40 → w = limb s.b (addr - 0x20)) ∧
        (0x40 ≤ addr → addr < 0x60 → w = limb s.r (addr - 0x40)) ∧
        (addr = 0x60 → w.toNat = s.f.toNat) ∧ (addr = 0x61 → w = s.n) ∧ (addr = 0x62 → w = s.st) ∧
        (addr = 0x63 → w = s.cnt) ∧ (addr = 0x64 → w = s.cmdImm) ∧ (0x65 ≤ addr → w = 0)

/-- 20_memory.md R54: a host write to a limb or to CMD_IMM stores the word there; every other word reads as before, and
OUT and the parameters are unchanged. -/
def Obligations.HostWriteStoresOneWord : Prop :=
  ∀ (s : State) (addr : Nat) (v : Word) (rest : List HostAccess),
    s.pending = .write addr v :: rest → s.onBus addr = true → addr < 0x60 ∨ addr = 0x64 →
    ∃ t : State,
      step s = .next t ∧ memRead t addr = v ∧
        (∀ other, other ≠ addr → memRead t other = memRead s other) ∧ t.out = s.out ∧ t.cfg = s.cfg ∧
        t.pending = rest ∧ t.returned = s.returned

/-- 20_memory.md R54, R55: a write to a read-only or reserved word is ignored: neither ST nor anything else changes. -/
def Obligations.ReadOnlyAndReservedWritesAreIgnored : Prop :=
  ∀ (s : State) (addr : Nat) (v : Word) (rest : List HostAccess),
    s.pending = .write addr v :: rest → s.onBus addr = true →
    (0x60 ≤ addr ∧ addr ≤ 0x63) ∨ 0x66 ≤ addr →
      step s = .next { s with pending := rest }

/-- 70_reset_and_hazards.md R300, R301: asserting reset, while idle or during a command, puts every element of the state
to its reset value. That a reset during a command stands in place of the command's issue (`reset (some v)`) is the
model's reading of R301 (log entry 8). -/
def Obligations.ResetClearsEveryElement : Prop :=
  ∀ (s : State) (during : Option Word) (rest : List HostAccess), s.pending = .reset during :: rest →
    ∃ t : State,
      step s = .next t ∧ t.a = 0 ∧ t.b = 0 ∧ t.r = 0 ∧ t.f = 0 ∧ t.n = 0 ∧ t.st = 0 ∧ t.cnt = 0 ∧
        t.cmdImm = 0 ∧ t.out = []

/-- 10_state.md R20, 00_scope.md R7: the state right after reset. The model's own fields have the values log entry 9
names. -/
def Obligations.ResetStateValues : Prop :=
  State.reset.a = 0 ∧ State.reset.b = 0 ∧ State.reset.r = 0 ∧ State.reset.f = 0 ∧ State.reset.n = 0 ∧
    State.reset.st = 0 ∧ State.reset.cnt = 0 ∧ State.reset.cmdImm = 0 ∧ State.reset.out = [] ∧
    State.reset.cfg.cntW.val = 64 ∧ State.reset.cfg.haddrW = 8 ∧
    State.reset.cfg.strictUnwritten = false ∧ State.reset.pending = []

/-- 10_state.md R24, 92_eei_decisions.md D36; log entries 6 and 7 (the model's choice of what counts as unwritten and
when): a command that reads A stops when A is not readable, one that reads A and B also when B is not, MOV when its
source, be it A, B or R, is not, and a host read of an unwritten limb stops. -/
def Obligations.StrictUnwrittenReadsStop : Prop :=
  ∀ (s : State),
    (s.readable .a = false → ∀ i : Instr,
      i = .add ∨ i = .sub ∨ i = .mul ∨ i = .div ∨ i = .lt ∨ i = .eq ∨ i = .lzc ∨ i = .msb ∨ i = .print ∨
          (∃ n, i = .bit n) →
        exec i s = .fault (.unwrittenRegister .a)) ∧
      (s.readable .a = true → s.readable .b = false → ∀ i : Instr,
        i = .add ∨ i = .sub ∨ i = .mul ∨ i = .div ∨ i = .lt ∨ i = .eq →
          exec i s = .fault (.unwrittenRegister .b)) ∧
      (∀ d x, s.readable x = false → exec (.mov d x) s = .fault (.unwrittenRegister x)) ∧
      ∀ addr rest x k, s.pending = .read addr :: rest → s.onBus addr = true → limbAt addr = some (x, k) →
        s.limbReadable x k = false → step s = .fault (.unwrittenRegister x)

/-- 70_reset_and_hazards.md R307: every command ends. With STRICT_UNWRITTEN false each answers a next state from every
state, and a run of host accesses that fit the bus never stops. -/
def Obligations.EveryCommandEnds : Prop :=
  (∀ (i : Instr) (s : State), s.cfg.strictUnwritten = false → ∃ t, exec i s = .next t) ∧
    ∀ (n : Nat) (s : State), hostSafe s = true → ∃ t, Host.Core.run Sys2Proof.core n s = .next t

/-- 20_memory.md R62, R63: the host's accesses take effect one at a time, oldest first. A step is the oldest waiting
access, and a run takes as many of them as it has steps (that a step is one access of a list is the model's choice, log
entry 4). A read gives what the access before it left: the word just written, to a limb or CMD_IMM, and whatever the
access before it was, the word as that access's state holds it, so a command's results reach the very next read. -/
def Obligations.AccessesTakeEffectInOrder : Prop :=
  (∀ (s : State) (acc : HostAccess) (rest : List HostAccess), s.pending = acc :: rest →
    step s = access acc { s with pending := rest }) ∧
    (∀ (s t : State) (n : Nat), Host.Core.run Sys2Proof.core n s = .next t → t.pending = s.pending.drop n) ∧
    (∀ (s : State) (addr : Nat) (v : Word) (rest : List HostAccess),
      s.pending = .write addr v :: .read addr :: rest → s.onBus addr = true → addr < 0x60 ∨ addr = 0x64 →
      ∃ t : State, Host.Core.run Sys2Proof.core 2 s = .next t ∧ t.returned = s.returned ++ [v] ∧
        t.pending = rest) ∧
    ∀ (s u : State) (acc : HostAccess) (addr : Nat) (rest : List HostAccess),
      s.pending = acc :: .read addr :: rest → step s = .next u → s.onBus addr = true →
      (∀ x k, limbAt addr = some (x, k) → u.limbReadable x k = true) →
      Host.Core.run Sys2Proof.core 2 s =
        .next { u with pending := rest, returned := u.returned ++ [memRead u addr] }

/-- 10_state.md R24, R26, R27, 45_decimal.md R214: every step keeps the invariant: ST reads as R27 says, CNT fits its
width, a limb never written reads zero, and OUT holds digit bytes alone. -/
def Obligations.StepKeepsInvariant : Prop :=
  ∀ s t : State, inv s = true → step s = .next t → inv t = true

/-- The invariant holds right after reset, whatever accesses the host then makes. -/
def Obligations.InvariantHoldsAtReset : Prop :=
  ∀ accs : List HostAccess, inv { State.reset with pending := accs } = true

/-- 30_encoding.md R90: the syntax examples, and what the assembler refuses. -/
def Obligations.AssemblerExamples : Prop :=
  assembleWords "LDI B, 7" = .ok [⟨0x00000101, 7⟩] ∧
    assembleWords "MOV A, R ; copy" = .ok [⟨0x00000802, 0⟩] ∧
    assembleWords "POW2 100" = .ok [⟨0x00000033, 0x64⟩] ∧
    assembleWords "LDI A, 18446744073709551616" = .error .number ∧
    assembleWords "LDI A, -1" = .error .number ∧ assembleWords "LDI C, 1" = .error .register ∧
    assembleWords "ADD A" = .error .shape ∧ assembleWords "MOV A" = .error .shape ∧
    assembleWords "POW2" = .error .shape ∧ assembleWords "LDI A, 1, 2" = .error .shape
end

