-- ==== Sys2Proof/Laws/Counter.lean ====
section
/-! SUPPORT. Counting: `ticks` composes, is modular, and keeps CNT below 2^CNT_W (10_state.md R26). -/

namespace Sys2Proof.Laws

open Sys2Proof Sys2Proof.Machine

@[simp] theorem ticks_zero (c : Config) (cnt : Word) : ticks c 0 cnt = cnt := rfl

theorem tick_eq (c : Config) (cnt : Word) : tick c cnt = ticks c 1 cnt := rfl

theorem ticks_toNat (c : Config) (k : Nat) (cnt : Word) (h : k ≠ 0) :
    (ticks c k cnt).toNat = (cnt.toNat + k) % 2 ^ c.cntW.val := by
  rw [ticks, if_neg h, BitVec.toNat_ofNat]
  apply Nat.mod_eq_of_lt
  calc _ < 2 ^ c.cntW.val := Nat.mod_lt _ (Nat.two_pow_pos _)
    _ ≤ 2 ^ 64 := pow_le_pow_right₀ one_le_two (Nat.le_of_lt_succ c.cntW.isLt)

/-- Counting `k` and then `m` additions counts `k + m`. -/
theorem ticks_ticks (c : Config) (k m : Nat) (cnt : Word) :
    ticks c m (ticks c k cnt) = ticks c (k + m) cnt := by
  by_cases hk : k = 0
  · simp [hk]
  by_cases hm : m = 0
  · simp [hm]
  apply BitVec.eq_of_toNat_eq
  rw [ticks_toNat _ _ _ hm, ticks_toNat _ _ _ hk, ticks_toNat _ _ _ (by omega), Nat.mod_add_mod,
    Nat.add_assoc]

/-- Counting keeps CNT within its CNT_W bits. -/
theorem ticks_lt (c : Config) (k : Nat) (cnt : Word) (h : cnt.toNat < 2 ^ c.cntW.val) :
    (ticks c k cnt).toNat < 2 ^ c.cntW.val := by
  by_cases hk : k = 0
  · simpa [hk]
  · rw [ticks_toNat _ _ _ hk]
    exact Nat.mod_lt _ (Nat.two_pow_pos _)

end Sys2Proof.Laws
end

