-- ==== Sys2Proof/Laws/Values.lean ====
section
/-! SUPPORT. What limbs, bytes and `setLimb` are, bit by bit and as numbers. -/

namespace Sys2Proof.Laws

open Sys2Proof Sys2Proof.Machine

theorem limb_toNat (x : Val) (k : Nat) : (limb x k).toNat = x.toNat / 2 ^ (64 * k) % 2 ^ 64 := by
  simp [limb, Nat.shiftRight_eq_div_pow]

theorem limb_getLsbD (x : Val) (k i : Nat) :
    (limb x k).getLsbD i = (decide (i < 64) && x.getLsbD (64 * k + i)) := by
  simp [limb, BitVec.getLsbD_extractLsb']

theorem setLimb_getLsbD (x : Val) (k : Nat) (v : Word) (j : Nat) (hk : k < 32) :
    (setLimb x k v).getLsbD j =
      if 64 * k ≤ j ∧ j < 64 * k + 64 then v.getLsbD (j - 64 * k) else x.getLsbD j := by
  unfold setLimb
  simp only [BitVec.getLsbD_or, BitVec.getLsbD_and, BitVec.getLsbD_not, BitVec.getLsbD_shiftLeft,
    BitVec.getLsbD_setWidth, BitVec.getLsbD_allOnes]
  by_cases hj : j < 2048
  · by_cases h1 : 64 * k ≤ j <;> by_cases h2 : j < 64 * k + 64
    · have : j - 64 * k < 64 := by omega
      have : j - 64 * k < 2048 := by omega
      have : ¬ j < 64 * k := by omega
      simp [*]
    · have : ¬ j - 64 * k < 64 := by omega
      have : v.getLsbD (j - 64 * k) = false := BitVec.getLsbD_of_ge _ _ (by omega)
      simp [*]
    · have : j < 64 * k := by omega
      simp [*]
    · omega
  · have h1 : ¬ (64 * k ≤ j ∧ j < 64 * k + 64) := by omega
    have h2 : x.getLsbD j = false := BitVec.getLsbD_of_ge _ _ (by omega)
    simp [h1, h2, hj]

/-- A limb written is the limb read. -/
theorem limb_setLimb_same (x : Val) (k : Nat) (v : Word) (hk : k < 32) : limb (setLimb x k v) k = v := by
  apply BitVec.eq_of_getLsbD_eq
  intro i hi
  rw [limb_getLsbD, setLimb_getLsbD _ _ _ _ hk]
  simp [hi]

/-- The other limbs keep their values (20_memory.md R54). -/
theorem limb_setLimb_other (x : Val) (k j : Nat) (v : Word) (hk : k < 32) (h : j ≠ k) :
    limb (setLimb x k v) j = limb x j := by
  apply BitVec.eq_of_getLsbD_eq
  intro i hi
  rw [limb_getLsbD, limb_getLsbD, setLimb_getLsbD _ _ _ _ hk, if_neg]
  omega

/-- A value is its 32 limbs (00_scope.md R8). -/
theorem val_ext {x y : Val} (h : ∀ k, k < 32 → limb x k = limb y k) : x = y := by
  apply BitVec.eq_of_getLsbD_eq
  intro i hi
  have := congrArg (fun w => w.getLsbD (i % 64)) (h (i / 64) (by omega))
  have hm : i % 64 < 64 := by omega
  simp only [limb_getLsbD, hm, decide_true, Bool.true_and] at this
  rwa [Nat.div_add_mod] at this

/-- One more limb of a value's number (00_scope.md R8). -/
theorem mod_limb_succ (x : Val) (k : Nat) :
    x.toNat % 2 ^ (64 * (k + 1)) = x.toNat % 2 ^ (64 * k) + 2 ^ (64 * k) * (limb x k).toNat := by
  rw [limb_toNat, Nat.mul_add, Nat.mul_one, Nat.pow_add, Nat.mod_mul]

/-- Setting the limb above everything a value holds adds it at its weight. -/
theorem setLimb_toNat_of_lt {x : Val} {k : Nat} (v : Word) (hk : k < 32) (h : x.toNat < 2 ^ (64 * k)) :
    (setLimb x k v).toNat = x.toNat + 2 ^ (64 * k) * v.toNat := by
  have hv : v.toNat < 2 ^ 64 := v.isLt
  have hpow : 2 ^ (64 * k) * 2 ^ 64 ≤ 2 ^ 2048 := by
    rw [← Nat.pow_add]
    exact pow_le_pow_right₀ one_le_two (by omega)
  have hlt : x.toNat + 2 ^ (64 * k) * v.toNat < 2 ^ 2048 := by
    calc x.toNat + 2 ^ (64 * k) * v.toNat < 2 ^ (64 * k) + 2 ^ (64 * k) * v.toNat := by omega
      _ = 2 ^ (64 * k) * (v.toNat + 1) := by ring
      _ ≤ 2 ^ (64 * k) * 2 ^ 64 := Nat.mul_le_mul_left _ hv
      _ ≤ 2 ^ 2048 := hpow
  have key : setLimb x k v = BitVec.ofNat 2048 (x.toNat + 2 ^ (64 * k) * v.toNat) := by
    apply BitVec.eq_of_getLsbD_eq
    intro j hj
    rw [setLimb_getLsbD _ _ _ _ hk, BitVec.getLsbD_ofNat]
    have hx : ∀ j, x.getLsbD j = x.toNat.testBit j := fun j => rfl
    have hvb : ∀ j, v.getLsbD j = v.toNat.testBit j := fun j => rfl
    rw [Nat.add_comm x.toNat, Nat.testBit_two_pow_mul_add _ h]
    by_cases h1 : j < 64 * k
    · have h2 : ¬ (64 * k ≤ j ∧ j < 64 * k + 64) := by omega
      rw [if_neg h2, hx]
      simp [h1, hj]
    · by_cases h2 : j < 64 * k + 64
      · have h3 : 64 * k ≤ j := by omega
        simp [h1, h2, h3, hj, hvb]
      · have h4 : x.toNat < 2 ^ j := lt_of_lt_of_le h (Nat.pow_le_pow_right (by omega) (by omega))
        have h5 : v.toNat.testBit (j - 64 * k) = false :=
          Nat.testBit_lt_two_pow (lt_of_lt_of_le hv (Nat.pow_le_pow_right (by omega) (by omega)))
        have h6 : x.toNat.testBit j = false := Nat.testBit_lt_two_pow h4
        rw [if_neg (by omega), hx, h6]
        simp [h1, hj, h5]
  rw [key, BitVec.toNat_ofNat, Nat.mod_eq_of_lt hlt]

/-- A number that fits one limb is itself as a value. -/
theorem ofNat_toNat_of_lt {n : Nat} (h : n < 2 ^ 64) : (BitVec.ofNat 2048 n).toNat = n := by
  rw [BitVec.toNat_ofNat]
  exact Nat.mod_eq_of_lt (lt_trans h (pow_lt_pow_right₀ one_lt_two (by decide)))

@[simp] theorem zero_toNat : (0 : Val).toNat = 0 := by simp

/-- A nonzero value is a positive number. -/
theorem toNat_pos {x : Val} (h : x ≠ 0) : 0 < x.toNat := by
  apply Nat.pos_of_ne_zero
  intro h0
  apply h
  apply BitVec.eq_of_toNat_eq
  simpa using h0

/-- Below its width, a value is its number. -/
theorem mod_width (x : Val) : x.toNat % 2 ^ (64 * 32) = x.toNat := by
  rw [show (64 * 32 : Nat) = 2048 from rfl]
  exact BitVec.toNat_mod_cancel x

end Sys2Proof.Laws
end

