-- ==== Sys2Proof/Laws/Adder.lean ====
section
/-! SUPPORT. The adder is addition modulo 2^2048 with an exact carry, and counts once (41_add.md R132, R134). -/

namespace Sys2Proof.Laws

open Sys2Proof Sys2Proof.Machine

/-- The limb step is the exact 65-bit sum, cut into limb and carry (41_add.md R132). -/
theorem limbAdd_exact (x y : Word) (c : Bool) :
    (limbAdd x y c).sum.toNat + 2 ^ 64 * (limbAdd x y c).carry.toNat = x.toNat + y.toNat + c.toNat := by
  have hx := x.isLt
  have hy := y.isLt
  cases c
  · by_cases h : x.toNat + y.toNat < 2 ^ 64
    · have hs : (x + y).toNat = x.toNat + y.toNat := by
        rw [BitVec.toNat_add, Nat.mod_eq_of_lt h]
      have : ¬ x + y < x := by rw [BitVec.lt_def, hs]; omega
      simp [limbAdd, this, hs]
    · have hs : (x + y).toNat = x.toNat + y.toNat - 2 ^ 64 := by
        rw [BitVec.toNat_add]; omega
      have : x + y < x := by rw [BitVec.lt_def, hs]; omega
      simp [limbAdd, this, hs]; omega
  · by_cases h : x.toNat + y.toNat + 1 < 2 ^ 64
    · have hs : (x + y + 1#64).toNat = x.toNat + y.toNat + 1 := by
        simp only [BitVec.toNat_add, BitVec.toNat_ofNat]; omega
      have : ¬ x + y + 1#64 ≤ y := by rw [BitVec.le_def, hs]; omega
      simp [limbAdd, this, hs]
    · have hs : (x + y + 1#64).toNat = x.toNat + y.toNat + 1 - 2 ^ 64 := by
        simp only [BitVec.toNat_add, BitVec.toNat_ofNat]; omega
      have : x + y + 1#64 ≤ y := by rw [BitVec.le_def, hs]; omega
      simp [limbAdd, this, hs]; omega

/-- The adder after `k` limbs: the exact sum of the low parts, cut into value and carry. -/
theorem addLimbs_exact (x y : Val) (k : Nat) (hk : k ≤ 32) :
    (addLimbs x y k).sum.toNat < 2 ^ (64 * k) ∧
      (addLimbs x y k).sum.toNat + 2 ^ (64 * k) * (addLimbs x y k).carry.toNat =
        x.toNat % 2 ^ (64 * k) + y.toNat % 2 ^ (64 * k) := by
  induction k with
  | zero => simp [addLimbs, Nat.mod_one]
  | succ k ih =>
    obtain ⟨hlt, hsum⟩ := ih (by omega)
    have hstep := limbAdd_exact (limb x k) (limb y k) (addLimbs x y k).carry
    have hset := setLimb_toNat_of_lt (limbAdd (limb x k) (limb y k) (addLimbs x y k).carry).sum
      (show k < 32 by omega) hlt
    have hs := (limbAdd (limb x k) (limb y k) (addLimbs x y k).carry).sum.isLt
    have hpow : 2 ^ (64 * (k + 1)) = 2 ^ (64 * k) * 2 ^ 64 := by
      rw [← Nat.pow_add]; ring_nf
    simp only [addLimbs]
    rw [mod_limb_succ, mod_limb_succ, hset, hpow]
    generalize 2 ^ (64 * k) = P at *
    constructor
    · nlinarith
    · nlinarith [congrArg (P * ·) hstep]

/-- `AddW` is the wrapped sum, the exact carry out, and one count (41_add.md R134). -/
theorem addW_sum (cfg : Config) (x y : Val) (cnt : Word) : (addW cfg x y cnt).sum = x + y := by
  have h := addLimbs_exact x y 32 (by omega)
  rw [mod_width, mod_width] at h
  apply BitVec.eq_of_toNat_eq
  rw [BitVec.toNat_add, ← h.2]
  simp [addW, Nat.mod_eq_of_lt h.1]

theorem addW_carry (cfg : Config) (x y : Val) (cnt : Word) :
    (addW cfg x y cnt).carry = decide (2 ^ 2048 ≤ x.toNat + y.toNat) := by
  obtain ⟨hlt, h⟩ := addLimbs_exact x y 32 (by omega)
  rw [mod_width, mod_width] at h
  have : (addW cfg x y cnt).carry = (addLimbs x y 32).carry := rfl
  rw [this]
  cases hc : (addLimbs x y 32).carry <;> simp [hc] at h <;> symm <;> simp <;> omega

theorem addW_cnt (cfg : Config) (x y : Val) (cnt : Word) :
    (addW cfg x y cnt).cnt = ticks cfg 1 cnt := rfl

end Sys2Proof.Laws
end

