-- ==== Sys2Proof/Laws/BitHelpers.lean ====
section
/-! SUPPORT. The leading-zero count is 2048 minus the bit length, and the MSB index bounds the value
(46_bit_helpers.md R240). -/

namespace Sys2Proof.Laws

open Sys2Proof Sys2Proof.Machine

/-- The leading zeros of the low `k` bits, by their bit length. -/
theorem lzcBelow_size (x : Val) (k : Nat) : lzcBelow x k + Nat.size (x.toNat % 2 ^ k) = k := by
  induction k with
  | zero => simp [lzcBelow, Nat.mod_one]
  | succ k ih =>
    have hb : x.getLsbD k = decide (x.toNat / 2 ^ k % 2 = 1) := Nat.testBit_eq_decide_div_mod_eq
    have hlt := Nat.mod_lt x.toNat (Nat.two_pow_pos k)
    rw [Nat.mod_pow_succ, lzcBelow, hb]
    obtain h | h := Nat.mod_two_eq_zero_or_one (x.toNat / 2 ^ k)
    · simp only [h, Nat.zero_ne_one, decide_false, Bool.false_eq_true, if_false, Nat.mul_zero, Nat.add_zero]
      omega
    · simp only [h, decide_true, if_true, Nat.mul_one, Nat.zero_add]
      apply Nat.le_antisymm
      · rw [Nat.size_le, Nat.pow_succ]; omega
      · rw [Nat.succ_le_iff, Nat.lt_size]; omega

theorem lzcBelow_of_lt {x : Val} {k : Nat} (h : x.toNat < 2 ^ k) : lzcBelow x k + Nat.size x.toNat = k := by
  have hs := lzcBelow_size x k
  rwa [Nat.mod_eq_of_lt h] at hs

/-- `lzc(x) = 2048 - bitlength(x)` (46_bit_helpers.md R240). -/
theorem lzcVal_size (x : Val) : lzcVal x + Nat.size x.toNat = Config.width := lzcBelow_of_lt x.isLt

theorem size_pos_of_ne_zero {x : Val} (h : x ≠ 0) : 0 < Nat.size x.toNat := by
  rw [Nat.lt_size, Nat.pow_zero]
  exact toNat_pos h

/-- `msb(x) + 1` is the bit length of a nonzero value. -/
theorem msbVal_size {x : Val} (h : x ≠ 0) : msbVal x + 1 = Nat.size x.toNat := by
  have h1 : lzcVal x + Nat.size x.toNat = 2048 := lzcVal_size x
  have h2 := size_pos_of_ne_zero h
  rw [msbVal]; omega

/-- The top set bit bounds the value from below and above (46_bit_helpers.md R240). -/
theorem msbVal_bounds {x : Val} (h : x ≠ 0) :
    2 ^ msbVal x ≤ x.toNat ∧ x.toNat < 2 ^ (msbVal x + 1) := by
  have hs := msbVal_size h
  exact ⟨Nat.lt_size.mp (by omega), Nat.size_le.mp (by omega)⟩

theorem msbVal_lt (x : Val) : msbVal x < 2048 := by rw [msbVal]; omega

/-- `2^i` for a bit index of the value (46_bit_helpers.md R244). -/
theorem pow2Val_toNat {i : Nat} (h : i < 2048) : (pow2Val i).toNat = 2 ^ i := by
  rw [pow2Val, BitVec.toNat_ofNat, Nat.mod_eq_of_lt]
  exact pow_lt_pow_right₀ one_lt_two h

end Sys2Proof.Laws
end

