-- ==== Sys2Proof/Laws/State.lean ====
section
/-! SUPPORT. The fields of a state after each named update. -/

namespace Sys2Proof.Laws

open Sys2Proof Sys2Proof.Machine

/-! ### setVal -/

@[simp] theorem setVal_val_same (s : State) (x : Reg) (v : Val) : (s.setVal x v).val x = v := by
  cases x <;> rfl

theorem setVal_val_other (s : State) {x y : Reg} (v : Val) (h : y ≠ x) : (s.setVal x v).val y = s.val y := by
  cases x <;> cases y <;> first | rfl | exact absurd rfl h

@[simp] theorem setVal_marks_same (s : State) (x : Reg) (v : Val) :
    (s.setVal x v).marks x = BitVec.allOnes 32 := by
  cases x <;> rfl

theorem setVal_marks_other (s : State) {x y : Reg} (v : Val) (h : y ≠ x) :
    (s.setVal x v).marks y = s.marks y := by
  cases x <;> cases y <;> first | rfl | exact absurd rfl h

@[simp] theorem setVal_f (s : State) (x : Reg) (v : Val) : (s.setVal x v).f = s.f := by cases x <;> rfl
@[simp] theorem setVal_n (s : State) (x : Reg) (v : Val) : (s.setVal x v).n = s.n := by cases x <;> rfl
@[simp] theorem setVal_st (s : State) (x : Reg) (v : Val) : (s.setVal x v).st = s.st := by cases x <;> rfl
@[simp] theorem setVal_cnt (s : State) (x : Reg) (v : Val) : (s.setVal x v).cnt = s.cnt := by cases x <;> rfl
@[simp] theorem setVal_cmdImm (s : State) (x : Reg) (v : Val) : (s.setVal x v).cmdImm = s.cmdImm := by
  cases x <;> rfl
@[simp] theorem setVal_out (s : State) (x : Reg) (v : Val) : (s.setVal x v).out = s.out := by cases x <;> rfl
@[simp] theorem setVal_cfg (s : State) (x : Reg) (v : Val) : (s.setVal x v).cfg = s.cfg := by cases x <;> rfl
@[simp] theorem setVal_pending (s : State) (x : Reg) (v : Val) : (s.setVal x v).pending = s.pending := by
  cases x <;> rfl
@[simp] theorem setVal_returned (s : State) (x : Reg) (v : Val) : (s.setVal x v).returned = s.returned := by
  cases x <;> rfl

@[simp] theorem setVal_r_a (s : State) (v : Val) : (s.setVal .r v).a = s.a := rfl
@[simp] theorem setVal_r_b (s : State) (v : Val) : (s.setVal .r v).b = s.b := rfl
@[simp] theorem setVal_r_r (s : State) (v : Val) : (s.setVal .r v).r = v := rfl

/-! ### writeLimb -/

@[simp] theorem writeLimb_val_same (s : State) (x : Reg) (k : Nat) (v : Word) :
    (s.writeLimb x k v).val x = setLimb (s.val x) k v := by
  cases x <;> rfl

theorem writeLimb_val_other (s : State) {x y : Reg} (k : Nat) (v : Word) (h : y ≠ x) :
    (s.writeLimb x k v).val y = s.val y := by
  cases x <;> cases y <;> first | rfl | exact absurd rfl h

@[simp] theorem writeLimb_marks_same (s : State) (x : Reg) (k : Nat) (v : Word) :
    (s.writeLimb x k v).marks x = s.marks x ||| BitVec.twoPow 32 k := by
  cases x <;> rfl

theorem writeLimb_marks_other (s : State) {x y : Reg} (k : Nat) (v : Word) (h : y ≠ x) :
    (s.writeLimb x k v).marks y = s.marks y := by
  cases x <;> cases y <;> first | rfl | exact absurd rfl h

@[simp] theorem writeLimb_f (s : State) (x : Reg) (k : Nat) (v : Word) : (s.writeLimb x k v).f = s.f := by
  cases x <;> rfl
@[simp] theorem writeLimb_n (s : State) (x : Reg) (k : Nat) (v : Word) : (s.writeLimb x k v).n = s.n := by
  cases x <;> rfl
@[simp] theorem writeLimb_st (s : State) (x : Reg) (k : Nat) (v : Word) : (s.writeLimb x k v).st = s.st := by
  cases x <;> rfl
@[simp] theorem writeLimb_cnt (s : State) (x : Reg) (k : Nat) (v : Word) :
    (s.writeLimb x k v).cnt = s.cnt := by
  cases x <;> rfl
@[simp] theorem writeLimb_cmdImm (s : State) (x : Reg) (k : Nat) (v : Word) :
    (s.writeLimb x k v).cmdImm = s.cmdImm := by
  cases x <;> rfl
@[simp] theorem writeLimb_out (s : State) (x : Reg) (k : Nat) (v : Word) :
    (s.writeLimb x k v).out = s.out := by
  cases x <;> rfl
@[simp] theorem writeLimb_cfg (s : State) (x : Reg) (k : Nat) (v : Word) :
    (s.writeLimb x k v).cfg = s.cfg := by
  cases x <;> rfl
@[simp] theorem writeLimb_pending (s : State) (x : Reg) (k : Nat) (v : Word) :
    (s.writeLimb x k v).pending = s.pending := by
  cases x <;> rfl
@[simp] theorem writeLimb_returned (s : State) (x : Reg) (k : Nat) (v : Word) :
    (s.writeLimb x k v).returned = s.returned := by
  cases x <;> rfl

/-! ### emit -/

@[simp] theorem emit_out (s : State) (bs : List Byte) : (s.emit bs).out = s.out ++ bs := rfl
@[simp] theorem emit_a (s : State) (bs : List Byte) : (s.emit bs).a = s.a := rfl
@[simp] theorem emit_b (s : State) (bs : List Byte) : (s.emit bs).b = s.b := rfl
@[simp] theorem emit_r (s : State) (bs : List Byte) : (s.emit bs).r = s.r := rfl
@[simp] theorem emit_f (s : State) (bs : List Byte) : (s.emit bs).f = s.f := rfl
@[simp] theorem emit_n (s : State) (bs : List Byte) : (s.emit bs).n = s.n := rfl
@[simp] theorem emit_st (s : State) (bs : List Byte) : (s.emit bs).st = s.st := rfl
@[simp] theorem emit_cnt (s : State) (bs : List Byte) : (s.emit bs).cnt = s.cnt := rfl
@[simp] theorem emit_cmdImm (s : State) (bs : List Byte) : (s.emit bs).cmdImm = s.cmdImm := rfl
@[simp] theorem emit_cfg (s : State) (bs : List Byte) : (s.emit bs).cfg = s.cfg := rfl
@[simp] theorem emit_written (s : State) (bs : List Byte) : (s.emit bs).written = s.written := rfl
@[simp] theorem emit_pending (s : State) (bs : List Byte) : (s.emit bs).pending = s.pending := rfl
@[simp] theorem emit_returned (s : State) (bs : List Byte) : (s.emit bs).returned = s.returned := rfl

/-! ### applyReset -/

@[simp] theorem applyReset_a (s : State) : s.applyReset.a = 0 := rfl
@[simp] theorem applyReset_b (s : State) : s.applyReset.b = 0 := rfl
@[simp] theorem applyReset_r (s : State) : s.applyReset.r = 0 := rfl
@[simp] theorem applyReset_f (s : State) : s.applyReset.f = 0 := rfl
@[simp] theorem applyReset_n (s : State) : s.applyReset.n = 0 := rfl
@[simp] theorem applyReset_st (s : State) : s.applyReset.st = 0 := rfl
@[simp] theorem applyReset_cnt (s : State) : s.applyReset.cnt = 0 := rfl
@[simp] theorem applyReset_cmdImm (s : State) : s.applyReset.cmdImm = 0 := rfl
@[simp] theorem applyReset_out (s : State) : s.applyReset.out = [] := rfl
@[simp] theorem applyReset_cfg (s : State) : s.applyReset.cfg = s.cfg := rfl
@[simp] theorem applyReset_written (s : State) : s.applyReset.written = ⟨0, 0, 0⟩ := rfl
@[simp] theorem applyReset_pending (s : State) : s.applyReset.pending = s.pending := rfl
@[simp] theorem applyReset_returned (s : State) : s.applyReset.returned = s.returned := rfl

end Sys2Proof.Laws
end

