-- ==== Sys2Proof/Laws/Bus.lean ====
section
/-! SUPPORT. What one step does, by the host's oldest waiting access, and what each access can answer. -/

namespace Sys2Proof.Laws

open Sys2Proof Sys2Proof.Machine

theorem step_idle {s : State} (h : s.pending = []) : step s = .next s := by
  simp only [step, hostStep, h]

theorem step_access {s : State} {acc : HostAccess} {rest : List HostAccess} (h : s.pending = acc :: rest) :
    step s = access acc { s with pending := rest } := by
  simp only [step, hostStep, h]

/-- A read that completes delivers the word and changes nothing else (20_memory.md R53). -/
theorem hostRead_next {addr : Nat} {s t : State} (h : hostRead addr s = .next t) :
    t = { s with returned := s.returned ++ [memRead s addr] } := by
  unfold hostRead at h
  split at h
  · split at h
    · split at h
      · cases h; rfl
      · cases h
    · cases h; rfl
  · cases h

/-- A write that completes does what 20_memory.md R54 says. -/
theorem hostWrite_next {addr : Nat} {v : Word} {s t : State} (h : hostWrite addr v s = .next t) :
    s.onBus addr = true ∧ memWrite addr v s = .next t := by
  unfold hostWrite at h
  split at h
  · exact ⟨‹_›, h⟩
  · cases h

/-- A write either stores a limb, or loads CMD_IMM, or issues a command, or has no effect (20_memory.md R54). -/
theorem memWrite_cases (addr : Nat) (v : Word) (s : State) :
    (∃ x k, limbAt addr = some (x, k) ∧ k < 32 ∧ memWrite addr v s = .next (s.writeLimb x k v)) ∨
      (addr = 0x64 ∧ memWrite addr v s = .next { s with cmdImm := v }) ∨
      (addr = 0x65 ∧ memWrite addr v s = issue v s) ∨
      (0x60 ≤ addr ∧ addr ≠ 0x64 ∧ addr ≠ 0x65 ∧ memWrite addr v s = .next s) := by
  unfold memWrite limbAt
  by_cases h1 : addr < 0x20
  · left; exact ⟨.a, addr, by simp [h1], h1, by simp [h1]⟩
  by_cases h2 : addr < 0x40
  · left; exact ⟨.b, addr - 0x20, by simp [h1, h2], by omega, by simp [h1, h2]⟩
  by_cases h3 : addr < 0x60
  · left; exact ⟨.r, addr - 0x40, by simp [h1, h2, h3], by omega, by simp [h1, h2, h3]⟩
  by_cases h4 : addr = 0x64
  · right; left; exact ⟨h4, by simp [h4]⟩
  by_cases h5 : addr = 0x65
  · right; right; left; exact ⟨h5, by simp [h5, cmdCtrlAddr]⟩
  · right; right; right; exact ⟨by omega, h4, h5, by simp [h1, h2, h3, h4, h5, cmdCtrlAddr]⟩

/-- A limb's word reads the limb (20_memory.md R52, R53). -/
theorem memRead_limb {addr k : Nat} {x : Reg} (s : State) (h : limbAt addr = some (x, k)) :
    memRead s addr = limb (s.val x) k := by
  unfold limbAt at h
  unfold memRead
  by_cases h1 : addr < 0x20
  · rw [if_pos h1] at h ⊢
    cases h
    rfl
  rw [if_neg h1] at h ⊢
  by_cases h2 : addr < 0x40
  · rw [if_pos h2] at h ⊢
    cases h
    rfl
  rw [if_neg h2] at h ⊢
  by_cases h3 : addr < 0x60
  · rw [if_pos h3] at h ⊢
    cases h
    rfl
  · rw [if_neg h3] at h
    cases h

/-- The limb that a word address names is one of 32. -/
theorem limbAt_lt {addr k : Nat} {x : Reg} (h : limbAt addr = some (x, k)) : k < 32 := by
  unfold limbAt at h
  split at h
  · cases h; assumption
  split at h
  · cases h; omega
  split at h
  · cases h; omega
  · cases h

/-- The word address of a register's limb 0 (20_memory.md R52). -/
def limbBase : Reg → Nat
  | .a => 0
  | .b => 0x20
  | .r => 0x40

/-- The address of a limb: its register's base, and the limb's number (20_memory.md R52). -/
theorem limbAt_addr {addr k : Nat} {x : Reg} (h : limbAt addr = some (x, k)) :
    addr = limbBase x + k := by
  unfold limbAt at h
  split at h
  · cases h; exact (Nat.zero_add _).symm
  split at h
  · cases h; simp only [limbBase]; omega
  split at h
  · cases h; simp only [limbBase]; omega
  · cases h

/-- The words that are no limb depend on no value register (20_memory.md R52). -/
theorem memRead_no_limb {addr : Nat} {s t : State} (h : limbAt addr = none) (hf : t.f = s.f) (hn : t.n = s.n)
    (hst : t.st = s.st) (hc : t.cnt = s.cnt) (hi : t.cmdImm = s.cmdImm) : memRead t addr = memRead s addr := by
  unfold limbAt at h
  unfold memRead
  have h1 : ¬ addr < 0x20 := fun c => by rw [if_pos c] at h; cases h
  have h2 : ¬ addr < 0x40 := fun c => by rw [if_neg h1, if_pos c] at h; cases h
  have h3 : ¬ addr < 0x60 := fun c => by rw [if_neg h1, if_neg h2, if_pos c] at h; cases h
  simp only [if_neg h1, if_neg h2, if_neg h3, hf, hn, hst, hc, hi]

/-- Reading back a limb the host wrote (20_memory.md R54). -/
theorem memRead_writeLimb_same {addr k : Nat} {x : Reg} (s : State) (v : Word) (h : limbAt addr = some (x, k)) :
    memRead (s.writeLimb x k v) addr = v := by
  rw [memRead_limb _ h, writeLimb_val_same, limb_setLimb_same _ _ _ (limbAt_lt h)]

/-- A limb write leaves every other word (20_memory.md R54). -/
theorem memRead_writeLimb_other {addr other k : Nat} {x : Reg} (s : State) (v : Word)
    (h : limbAt addr = some (x, k)) (ho : other ≠ addr) :
    memRead (s.writeLimb x k v) other = memRead s other := by
  cases hl : limbAt other with
  | none =>
    exact memRead_no_limb hl (writeLimb_f ..) (writeLimb_n ..) (writeLimb_st ..) (writeLimb_cnt ..)
      (writeLimb_cmdImm ..)
  | some yj =>
    obtain ⟨y, j⟩ := yj
    rw [memRead_limb _ hl, memRead_limb _ hl]
    by_cases hyx : y = x
    · subst hyx
      have hjk : j ≠ k := fun e => ho ((limbAt_addr (e ▸ hl)).trans (limbAt_addr h).symm)
      rw [writeLimb_val_same, limb_setLimb_other _ _ _ _ (limbAt_lt h) hjk]
    · rw [writeLimb_val_other _ _ _ hyx]

/-- An issued word runs its command or raises ILLEGAL (20_memory.md R57; 30_encoding.md R84). -/
theorem issue_ok {v : Word} {s : State} {i : Instr} (h : decode v s.cmdImm = .ok i) : issue v s = exec i s := by
  rw [issue, h]

theorem issue_error {v : Word} {s : State} {e : IllegalCause} (h : decode v s.cmdImm = .error e) :
    issue v s = raise .illegal s := by
  rw [issue, h]

end Sys2Proof.Laws
end

