-- ==== Sys2Proof/Laws/Compare.lean ====
section
/-! SUPPORT. The comparator is the unsigned order on values (40_construction_compare.md R115). -/

namespace Sys2Proof.Laws

open Sys2Proof Sys2Proof.Machine

theorem eqBelow_iff (x y : Val) (k : Nat) :
    eqBelow x y k = true ↔ x.toNat % 2 ^ (64 * k) = y.toNat % 2 ^ (64 * k) := by
  induction k with
  | zero => simp [eqBelow, Nat.mod_one]
  | succ k ih =>
    have hx := Nat.mod_lt x.toNat (Nat.two_pow_pos (64 * k))
    have hy := Nat.mod_lt y.toNat (Nat.two_pow_pos (64 * k))
    rw [mod_limb_succ, mod_limb_succ]
    simp only [eqBelow, Bool.and_eq_true, beq_iff_eq, ih]
    generalize 2 ^ (64 * k) = P at *
    constructor
    · rintro ⟨h1, h2⟩; rw [h1, h2]
    · intro h
      have hl : (limb x k).toNat = (limb y k).toNat := by
        have := congrArg (· / P) h
        simpa [Nat.add_mul_div_left _ _ (show 0 < P by omega), Nat.div_eq_of_lt hx, Nat.div_eq_of_lt hy]
          using this
      exact ⟨BitVec.eq_of_toNat_eq hl, by rw [hl] at h; omega⟩

/-- `Eq` is equality of the numbers (40_construction_compare.md R115). -/
theorem eqVal_iff (x y : Val) : eqVal x y = true ↔ x = y := by
  rw [eqVal, show Config.limbs = 32 from rfl, eqBelow_iff, mod_width, mod_width]
  exact ⟨BitVec.eq_of_toNat_eq, congrArg _⟩

theorem ltBelow_iff (x y : Val) (k : Nat) :
    ltBelow x y k = true ↔ x.toNat % 2 ^ (64 * k) < y.toNat % 2 ^ (64 * k) := by
  induction k with
  | zero => simp [ltBelow, Nat.mod_one]
  | succ k ih =>
    have hx := Nat.mod_lt x.toNat (Nat.two_pow_pos (64 * k))
    have hy := Nat.mod_lt y.toNat (Nat.two_pow_pos (64 * k))
    rw [mod_limb_succ, mod_limb_succ]
    by_cases h : limb x k = limb y k
    · simp [ltBelow, h, ih]
    · have hne : (limb x k).toNat ≠ (limb y k).toNat := fun he => h (BitVec.eq_of_toNat_eq he)
      simp only [ltBelow, bne_iff_ne, ne_eq, h, not_false_eq_true, if_true, BitVec.ult, decide_eq_true_eq]
      generalize 2 ^ (64 * k) = P at *
      constructor
      · intro hlt
        have := Nat.mul_le_mul_left P (Nat.succ_le_of_lt hlt)
        rw [Nat.mul_succ] at this
        omega
      · intro hlt
        by_contra hge
        have := Nat.mul_le_mul_left P (show (limb y k).toNat.succ ≤ (limb x k).toNat by omega)
        rw [Nat.mul_succ] at this
        omega

/-- `Lt` is the order of the numbers (40_construction_compare.md R115). -/
theorem ltVal_iff (x y : Val) : ltVal x y = true ↔ x.toNat < y.toNat := by
  rw [ltVal, show Config.limbs = 32 from rfl, ltBelow_iff, mod_width, mod_width]

theorem leVal_iff (x y : Val) : leVal x y = true ↔ x.toNat ≤ y.toNat := by
  rw [leVal, Bool.or_eq_true, ltVal_iff, eqVal_iff, Nat.le_iff_lt_or_eq]
  exact or_congr Iff.rfl ⟨congrArg _, BitVec.eq_of_toNat_eq⟩

end Sys2Proof.Laws
end

