-- ==== Sys2Proof/Laws/Decimal.lean ====
section
/-! SUPPORT. The decimal converter renders the decimal expansion, and its exact count (45_decimal.md R210, R211,
R212, R215, R217). -/

namespace Sys2Proof.Laws

open Sys2Proof Sys2Proof.Machine Sys2Proof.Reference

/-! ### Times10 -/

/-- `Times10` is ten times (45_decimal.md R210). -/
theorem times10_val (cfg : Config) (p : Val) (cnt : Word) : (times10 cfg p cnt).val = 10 * p := by
  simp only [times10, addW_sum]
  ring

/-- `Times10` counts five (45_decimal.md R210). -/
theorem times10_cnt (cfg : Config) (p : Val) (cnt : Word) : (times10 cfg p cnt).cnt = ticks cfg 5 cnt := by
  simp only [times10, addW_cnt, ticks_ticks]

/-! ### The power table -/

/-- 10^j as a value. -/
def pow10 (j : Nat) : Val := BitVec.ofNat 2048 (10 ^ j)

theorem pow10_fits {j : Nat} (h : j ≤ 616) : 10 ^ j < 2 ^ 2048 :=
  lt_of_le_of_lt (Nat.pow_le_pow_right (by decide) h) (by decide +kernel)

theorem pow10_toNat {j : Nat} (h : j ≤ 616) : (pow10 j).toNat = 10 ^ j := by
  rw [pow10, BitVec.toNat_ofNat, Nat.mod_eq_of_lt (pow10_fits h)]

/-- The powers 10^(m-1) down to 10^0. -/
def powersBelow : Nat → List Val
  | 0 => []
  | m + 1 => pow10 m :: powersBelow m

theorem pow10_succ (j : Nat) : 10 * pow10 j = pow10 (j + 1) := by
  rw [pow10, pow10, Nat.pow_succ, Nat.mul_comm (10 ^ j), BitVec.ofNat_mul]
  rfl

/-- The precompute from `K` powers goes on to the first `K` with P[K] > v, or to the last one allowed
(45_decimal.md R211). -/
theorem growTable_spec (cfg : Config) (v : Val) (fuel K : Nat) (cnt : Word) (hK : K + fuel ≤ 616) :
    ∃ n ≤ fuel,
      growTable cfg v fuel ⟨pow10 K, powersBelow K, cnt⟩ =
          ⟨pow10 (K + n), powersBelow (K + n), ticks cfg (5 * n) cnt⟩ ∧
        (∀ j < K + n, K ≤ j → 10 ^ j ≤ v.toNat) ∧ (n < fuel → v.toNat < 10 ^ (K + n)) := by
  induction fuel generalizing K cnt with
  | zero => exact ⟨0, le_refl _, rfl, fun j h1 h2 => absurd h1 (by omega), fun h => absurd h (by omega)⟩
  | succ fuel ih =>
    have hle := leVal_iff (pow10 K) v
    rw [pow10_toNat (by omega)] at hle
    by_cases h : 10 ^ K ≤ v.toNat
    · obtain ⟨n, hn, heq, hbelow, habove⟩ := ih (K + 1) (ticks cfg 5 cnt) (by omega)
      refine ⟨n + 1, by omega, ?_, ?_, ?_⟩
      · rw [growTable, if_pos (hle.mpr h)]
        simp only [times10_val, times10_cnt, pow10_succ]
        rw [← powersBelow, heq, ticks_ticks]
        congr 2 <;> omega
      · intro j h1 h2
        by_cases hj : j = K
        · rw [hj]; exact h
        · exact hbelow j (by omega) (by omega)
      · intro hlt
        have := habove (by omega)
        rwa [show K + (n + 1) = K + 1 + n by omega]
    · refine ⟨0, by omega, ?_, fun j h1 h2 => absurd h1 (by omega), fun _ => ?_⟩
      · rw [growTable, if_neg (fun hl => h (hle.mp hl))]; rfl
      · simpa using h

theorem numDigits_le_iff (v j : Nat) : numDigits v ≤ j ↔ v < 10 ^ j :=
  Nat.digits_length_le_iff (by decide) v

theorem numDigits_le (v : Val) : numDigits v.toNat ≤ 617 := by
  rw [numDigits_le_iff]
  exact lt_trans v.isLt (by decide +kernel)

/-- The table is complete: `K = min(digits, 616)` (45_decimal.md R211, R212). -/
theorem powerTable_spec (cfg : Config) (v : Val) (cnt : Word) :
    powerTable cfg v cnt =
      ⟨pow10 (min (numDigits v.toNat) 616), powersBelow (min (numDigits v.toNat) 616),
        ticks cfg (5 * min (numDigits v.toNat) 616) cnt⟩ := by
  obtain ⟨n, hn, heq, hbelow, habove⟩ := growTable_spec cfg v 616 0 cnt (by omega)
  have hone : (1 : Val) = pow10 0 := rfl
  have hdig := numDigits_le v
  have hmin : n = min (numDigits v.toNat) 616 := by
    by_cases hlt : n < 616
    · have h1 : numDigits v.toNat ≤ n := (numDigits_le_iff _ _).mpr (by simpa using habove hlt)
      by_cases h0 : n = 0
      · omega
      · have h2 := hbelow (n - 1) (by omega) (by omega)
        have h3 : ¬ numDigits v.toNat ≤ n - 1 := by rw [numDigits_le_iff]; omega
        omega
    · have h2 := hbelow 615 (by omega) (by omega)
      have h3 : ¬ numDigits v.toNat ≤ 615 := by rw [numDigits_le_iff]; omega
      omega
  rw [powerTable, hone, ← hmin]
  simpa [powersBelow] using heq

/-- The digits are drawn from the powers 10^T down to 10^0, with `T + 1 = max(digits, 1)` (45_decimal.md R212). -/
theorem powerTable_used (cfg : Config) (v : Val) (cnt : Word) :
    (powerTable cfg v cnt).used v = powersBelow (max (numDigits v.toNat) 1) := by
  rw [powerTable_spec]
  have hdig := numDigits_le v
  have hle := leVal_iff (pow10 (min (numDigits v.toNat) 616)) v
  rw [pow10_toNat (by omega)] at hle
  unfold PowerTable.used
  by_cases h617 : numDigits v.toNat = 617
  · have h1 : ¬ numDigits v.toNat ≤ 616 := by omega
    rw [numDigits_le_iff] at h1
    rw [h617] at hle ⊢
    rw [if_pos (hle.mpr (by simpa using h1))]
    rfl
  · have hmin : min (numDigits v.toNat) 616 = numDigits v.toNat := by omega
    rw [hmin] at hle ⊢
    have h1 : v.toNat < 10 ^ numDigits v.toNat := (numDigits_le_iff _ _).mp (le_refl _)
    rw [if_neg (fun hl => absurd (hle.mp hl) (by omega))]
    obtain h0 | ⟨m, hm⟩ : numDigits v.toNat = 0 ∨ ∃ m, numDigits v.toNat = m + 1 := by
      cases numDigits v.toNat <;> simp
    · rw [h0]; rfl
    · rw [hm]; simp [powersBelow]

/-! ### The digits -/

/-- The trial loop at one power takes the whole quotient, one count a trial, the rejected one included
(45_decimal.md R217). -/
theorem digitTrials_spec (cfg : Config) (v p : Val) (fuel : Nat) (d : Digit) (hp : 0 < p.toNat)
    (hsum : d.sum.toNat ≤ v.toNat) (hfuel : (v.toNat - d.sum.toNat) / p.toNat < fuel) :
    (digitTrials cfg v p fuel d).digit = d.digit + (v.toNat - d.sum.toNat) / p.toNat ∧
      (digitTrials cfg v p fuel d).sum.toNat =
        d.sum.toNat + (v.toNat - d.sum.toNat) / p.toNat * p.toNat ∧
      (digitTrials cfg v p fuel d).cnt =
        ticks cfg ((v.toNat - d.sum.toNat) / p.toNat + 1) d.cnt := by
  induction fuel generalizing d with
  | zero => exact absurd hfuel (Nat.not_lt_zero _)
  | succ fuel ih =>
    have hlt := ltVal_iff v (d.sum + p)
    have hv := v.isLt
    simp only [digitTrials, addW_sum, addW_carry, addW_cnt]
    by_cases h : v.toNat < d.sum.toNat + p.toNat
    · have hz : (v.toNat - d.sum.toNat) / p.toNat = 0 := Nat.div_eq_of_lt (by omega)
      have hcond : (decide (2 ^ 2048 ≤ d.sum.toNat + p.toNat) || ltVal v (d.sum + p)) = true := by
        rw [Bool.or_eq_true, decide_eq_true_eq, hlt]
        by_cases hc : 2 ^ 2048 ≤ d.sum.toNat + p.toNat
        · exact Or.inl hc
        · right
          rwa [BitVec.toNat_add, Nat.mod_eq_of_lt (by omega)]
      rw [if_pos hcond, hz]
      simp
    · have hnat : (d.sum + p).toNat = d.sum.toNat + p.toNat := by
        rw [BitVec.toNat_add, Nat.mod_eq_of_lt (by omega)]
      have hcond : ¬ (decide (2 ^ 2048 ≤ d.sum.toNat + p.toNat) || ltVal v (d.sum + p)) = true := by
        rw [Bool.or_eq_true, decide_eq_true_eq, hlt, hnat]
        omega
      have hq : (v.toNat - d.sum.toNat) / p.toNat = (v.toNat - (d.sum.toNat + p.toNat)) / p.toNat + 1 := by
        rw [Nat.sub_add_eq, ← Nat.div_eq_sub_div hp (by omega)]
      have hih := ih ⟨d.digit + 1, d.sum + p, ticks cfg 1 d.cnt⟩
      simp only [hnat] at hih
      obtain ⟨h1, h2, h3⟩ := hih (by omega) (by omega)
      rw [if_neg hcond, h1, h2, h3, ticks_ticks, hq]
      refine ⟨by omega, by ring, ?_⟩
      congr 1; omega

/-- The `m` decimal digits of `n` from 10^(m-1) down. -/
def digitsBelow : Nat → Nat → List Nat
  | 0, _ => []
  | m + 1, n => n / 10 ^ m :: digitsBelow m (n % 10 ^ m)

/-- The extraction over 10^(m-1) down to 10^0 emits the digits of what is left of `v`, and counts one trial more
than each digit (45_decimal.md R213, R217). -/
theorem extractDigits_spec (cfg : Config) (v : Val) (m : Nat) (sum : Val) (cnt : Word) (hm : m ≤ 617)
    (hsum : sum.toNat ≤ v.toNat) (hleft : v.toNat - sum.toNat < 10 ^ m) :
    extractDigits cfg v (powersBelow m) sum cnt =
      ⟨(digitsBelow m (v.toNat - sum.toNat)).map digitByte,
        ticks cfg (m + (digitsBelow m (v.toNat - sum.toNat)).sum) cnt⟩ := by
  induction m generalizing sum cnt with
  | zero => rfl
  | succ m ih =>
    have hp : (pow10 m).toNat = 10 ^ m := pow10_toNat (by omega)
    have hpos : 0 < 10 ^ m := Nat.pow_pos (by decide)
    have hdig : (v.toNat - sum.toNat) / 10 ^ m < 10 := by
      rw [Nat.div_lt_iff_lt_mul hpos, Nat.mul_comm, ← Nat.pow_succ]; exact hleft
    obtain ⟨h1, h2, h3⟩ := digitTrials_spec cfg v (pow10 m) maxTrials ⟨0, sum, cnt⟩
      (by rw [hp]; exact hpos) hsum (by rw [hp]; exact hdig)
    simp only [hp, Nat.zero_add] at h1 h2 h3
    have hdm := Nat.div_add_mod (v.toNat - sum.toNat) (10 ^ m)
    have hmul : (v.toNat - sum.toNat) / 10 ^ m * 10 ^ m = 10 ^ m * ((v.toNat - sum.toNat) / 10 ^ m) :=
      Nat.mul_comm _ _
    have hmod := Nat.mod_lt (v.toNat - sum.toNat) hpos
    have hrest : v.toNat - (digitTrials cfg v (pow10 m) maxTrials ⟨0, sum, cnt⟩).sum.toNat =
        (v.toNat - sum.toNat) % 10 ^ m := by omega
    simp only [powersBelow, extractDigits]
    rw [ih _ _ (by omega) (by omega) (by omega), hrest, h1, h3, ticks_ticks]
    simp only [digitsBelow, List.map_cons, List.sum_cons]
    congr 2; omega

/-- The last digit of a fixed-length expansion. -/
theorem digitsBelow_last (m n : Nat) (h : n < 10 ^ (m + 1)) :
    digitsBelow (m + 1) n = digitsBelow m (n / 10) ++ [n % 10] := by
  induction m generalizing n with
  | zero =>
    have : n % 10 = n := Nat.mod_eq_of_lt (by simpa using h)
    simp [digitsBelow, this]
  | succ m ih =>
    have hpos : 0 < 10 ^ (m + 1) := Nat.pow_pos (by decide)
    rw [digitsBelow, ih _ (Nat.mod_lt _ hpos), digitsBelow, Nat.div_div_eq_div_mul, ← Nat.pow_succ',
      Nat.pow_succ', Nat.mod_mul_right_div_self, Nat.mod_mul_right_mod]
    rfl

/-- The fixed-length digits are the base-10 digits, most significant first. -/
theorem digitsBelow_eq (m n : Nat) (h : numDigits n = m) : digitsBelow m n = (Nat.digits 10 n).reverse := by
  induction m generalizing n with
  | zero => rw [List.eq_nil_of_length_eq_zero h]; rfl
  | succ m ih =>
    have hn : n ≠ 0 := by rintro rfl; simp [numDigits] at h
    have hdef : Nat.digits 10 n = n % 10 :: Nat.digits 10 (n / 10) :=
      Nat.digits_def' (by decide) (Nat.pos_of_ne_zero hn)
    have hlen : numDigits (n / 10) = m := by
      rw [numDigits, hdef, List.length_cons] at h
      exact Nat.succ.inj h
    rw [digitsBelow_last m n ((numDigits_le_iff _ _).mp (le_of_eq h)), ih _ hlen, hdef, List.reverse_cons]

theorem digitsBelow_decimal (n : Nat) : digitsBelow (max (numDigits n) 1) n = decimalDigits n := by
  by_cases h : n = 0
  · subst h; rfl
  · have hpos : numDigits n ≠ 0 := by
      intro h0
      have := (numDigits_le_iff n 0).mp (le_of_eq h0)
      omega
    rw [decimalDigits, if_neg h, ← digitsBelow_eq _ _ rfl, max_eq_left (by omega)]

theorem decimalDigits_length (n : Nat) : (decimalDigits n).length = max (numDigits n) 1 := by
  by_cases h : n = 0
  · subst h; rfl
  · have hpos : numDigits n ≠ 0 := by
      intro h0
      have := (numDigits_le_iff n 0).mp (le_of_eq h0)
      omega
    rw [decimalDigits, if_neg h, List.length_reverse, max_eq_left (by omega), numDigits]

/-- What PRINT emits and counts: the decimal digits (45_decimal.md R214, R217), and the additions of R215. -/
theorem renderW_eq (cfg : Config) (v : Val) (cnt : Word) :
    renderW cfg v cnt =
      ⟨(decimalDigits v.toNat).map digitByte, ticks cfg (printAdditions v.toNat) cnt⟩ := by
  have hdig := numDigits_le v
  have hzero : (0 : Val).toNat = 0 := BitVec.toNat_zero
  have hlt : v.toNat < 10 ^ max (numDigits v.toNat) 1 := (numDigits_le_iff _ _).mp (le_max_left _ _)
  have hex := extractDigits_spec cfg v (max (numDigits v.toNat) 1) 0 (powerTable cfg v cnt).cnt (by omega)
    (by simp) (by simpa using hlt)
  rw [renderW, powerTable_used, hex, powerTable_spec, ticks_ticks, hzero, Nat.sub_zero, digitsBelow_decimal,
    printAdditions, decimalDigits_length, Nat.add_assoc]

end Sys2Proof.Laws
end

