-- ==== Sys2Proof/Laws/Decode.lean ====
section
/-! SUPPORT. What the decoder can answer: the fields a decoded word has, how the immediate enters, and the word that
given fields make (30_encoding.md R81, R84, R92). -/

namespace Sys2Proof.Laws

open Sys2Proof

/-- The same command with another immediate, where it reads one (30_encoding.md R92). -/
def withImm (imm : Word) : Instr → Instr
  | .ldi d _ => .ldi d imm
  | .bit _ => .bit imm
  | .pow2 _ => .pow2 imm
  | .nop => .nop
  | .mov d src => .mov d src
  | .add => .add
  | .sub => .sub
  | .mul => .mul
  | .div => .div
  | .lt => .lt
  | .eq => .eq
  | .lzc => .lzc
  | .msb => .msb
  | .print => .print
  | .rdcnt => .rdcnt

theorem formPlain_map (d s : BitVec 2) (i : Instr) (f : Instr → Instr) :
    (formPlain d s i).map f = formPlain d s (f i) := by
  unfold formPlain; split <;> rfl

theorem formDest_map (d s : BitVec 2) (mk : Reg → Instr) (f : Instr → Instr) :
    (formDest d s mk).map f = formDest d s (fun x => f (mk x)) := by
  unfold formDest
  split
  · cases readSelector d <;> rfl
  · rfl

theorem formDestSrc_map (d s : BitVec 2) (mk : Reg → Reg → Instr) (f : Instr → Instr) :
    (formDestSrc d s mk).map f = formDestSrc d s (fun x y => f (mk x y)) := by
  unfold formDestSrc
  cases readSelector d <;> cases readSelector s <;> rfl

/-- The immediate enters the decoded command alone, never whether a word decodes. -/
theorem decodeOp_imm (op : BitVec 8) (d s : BitVec 2) (imm : Word) :
    decodeOp op d s imm = (decodeOp op d s 0).map (withImm imm) := by
  simp only [decodeOp, apply_ite (Except.map (withImm imm)), formPlain_map, formDest_map, formDestSrc_map]
  rfl

theorem decode_imm (v imm : Word) : decode v imm = (decode v 0).map (withImm imm) := by
  simp only [decode, apply_ite (Except.map (withImm imm)), ← decodeOp_imm]
  rfl

/-- A word that decodes has its reserved bits zero. -/
theorem decode_ok {v imm : Word} {i : Instr} (h : decode v imm = .ok i) :
    v.extractLsb' 32 32 = 0 ∧ v.extractLsb' 12 20 = 0 ∧
      decodeOp (v.extractLsb' 0 8) (v.extractLsb' 8 2) (v.extractLsb' 10 2) imm = .ok i := by
  unfold decode at h
  split at h
  · cases h
  · split at h
    · cases h
    · exact ⟨not_not.mp ‹_›, not_not.mp ‹_›, h⟩

/-- The bus word with given OP, D and S fields and zeros elsewhere (30_encoding.md R81). -/
def wordOfFields (op : BitVec 8) (d s : BitVec 2) : Word := 0#52 ++ s ++ d ++ op

/-- A word with its reserved bits zero is the word of its fields. -/
theorem eq_wordOfFields {v : Word} (h1 : v.extractLsb' 32 32 = 0) (h2 : v.extractLsb' 12 20 = 0) :
    v = wordOfFields (v.extractLsb' 0 8) (v.extractLsb' 8 2) (v.extractLsb' 10 2) := by
  have hzero : ∀ i, 12 ≤ i → v.getLsbD i = false := by
    intro i hi
    by_cases hlo : i < 32
    · have h := congrArg (fun w => w.getLsbD (i - 12)) h2
      rw [BitVec.getLsbD_extractLsb', decide_eq_true (by omega : i - 12 < 20), Nat.add_sub_cancel' hi] at h
      simpa using h
    · by_cases hhi : i < 64
      · have h := congrArg (fun w => w.getLsbD (i - 32)) h1
        rw [BitVec.getLsbD_extractLsb', decide_eq_true (by omega : i - 32 < 32),
          Nat.add_sub_cancel' (by omega)] at h
        simpa using h
      · exact BitVec.getLsbD_of_ge _ _ (by omega)
  apply BitVec.eq_of_getLsbD_eq
  intro i hi
  simp only [wordOfFields, BitVec.getLsbD_append, BitVec.getLsbD_extractLsb']
  by_cases c1 : i < 8
  · simp [c1]
  · by_cases c2 : i < 10
    · simp [c1, show i - 8 < 2 by omega, show 8 + (i - 8) = i by omega]
    · by_cases c3 : i < 12
      · simp [c1, show ¬ i - 8 < 2 by omega, show i - 8 - 2 < 2 by omega, show 10 + (i - 8 - 2) = i by omega]
      · rw [hzero i (by omega)]
        simp [c1, show ¬ i - 8 < 2 by omega, show ¬ i - 8 - 2 < 2 by omega]

end Sys2Proof.Laws
end

