-- ==== Sys2Proof/Laws/Multiplier.lean ====
section
/-! SUPPORT. The multiplier is multiplication modulo 2^2048 and counts 2048 + popcount of the multiplier
(43_mul.md R171, R172). -/

namespace Sys2Proof.Laws

open Sys2Proof Sys2Proof.Machine

/-- After `k` positions the accumulator and the shifted multiplicand hold the partial products (43_mul.md R172). -/
theorem mulAfter_vals (cfg : Config) (x y : Val) (cnt : Word) (k : Nat) :
    (mulAfter cfg x y cnt k).acc = x * BitVec.ofNat 2048 (y.toNat % 2 ^ k) ∧
      (mulAfter cfg x y cnt k).sh = x * BitVec.ofNat 2048 (2 ^ k) := by
  induction k with
  | zero => simp [mulAfter, Nat.mod_one]
  | succ k ih =>
    obtain ⟨hacc, hsh⟩ := ih
    have hdouble : (mulAfter cfg x y cnt (k + 1)).sh = x * BitVec.ofNat 2048 (2 ^ (k + 1)) := by
      simp only [mulAfter, mulStep, addW_sum, hsh]
      rw [Nat.pow_succ, Nat.mul_two, BitVec.ofNat_add, BitVec.mul_add]
    refine ⟨?_, hdouble⟩
    have hb : y.getLsbD k = decide (y.toNat / 2 ^ k % 2 = 1) := Nat.testBit_eq_decide_div_mod_eq
    rw [Nat.mod_pow_succ]
    simp only [mulAfter, mulStep, addW_sum, hsh, hacc, hb]
    obtain h | h := Nat.mod_two_eq_zero_or_one (y.toNat / 2 ^ k)
    · simp [h]
    · simp [h, BitVec.ofNat_add, BitVec.mul_add]

/-- After `k` positions, `k` doublings and one accumulation per set bit have been counted (43_mul.md R171). -/
theorem mulAfter_cnt (cfg : Config) (x y : Val) (cnt : Word) (k : Nat) :
    (mulAfter cfg x y cnt k).cnt = ticks cfg (k + popcountBelow y k) cnt := by
  induction k with
  | zero => rfl
  | succ k ih =>
    simp only [mulAfter, mulStep, addW_cnt, popcountBelow]
    cases y.getLsbD k
    · simp only [Bool.false_eq_true, if_false, ih, ticks_ticks, Bool.toNat_false]
      congr 1; omega
    · simp only [if_true, ih, ticks_ticks, Bool.toNat_true]
      congr 1; omega

/-- `MulW`'s value (43_mul.md R172). -/
theorem mulW_val (cfg : Config) (x y : Val) (cnt : Word) : (mulW cfg x y cnt).val = x * y := by
  have h := (mulAfter_vals cfg x y cnt Config.mulSteps).1
  rw [mulW, h, BitVec.toNat_mod_cancel, BitVec.ofNat_toNat, BitVec.setWidth_eq]

/-- `MulW`'s count (43_mul.md R171). -/
theorem mulW_cnt (cfg : Config) (x y : Val) (cnt : Word) :
    (mulW cfg x y cnt).cnt = ticks cfg (2048 + popcount y) cnt :=
  mulAfter_cnt cfg x y cnt Config.mulSteps

end Sys2Proof.Laws
end

