-- ==== Sys2Proof/Laws/Divider.lean ====
section
/-! SUPPORT. The divider's loop keeps `b * q < a < b * (q + 2^k)`, and so gives the floor quotient (44_div.md R196,
R197). -/

namespace Sys2Proof.Laws

open Sys2Proof Sys2Proof.Machine Sys2Proof.Reference

/-- The candidate `q + 2^i` does not carry while `q + 2^(i+1)` fits the register (44_div.md R196). -/
theorem candidate_toNat (cfg : Config) {q : Val} {i : Nat} (cnt : Word)
    (h : q.toNat + 2 ^ (i + 1) ≤ 2 ^ 2048) :
    (addW cfg q (pow2Val i) cnt).sum.toNat = q.toNat + 2 ^ i := by
  have hi : i < 2048 := by
    by_contra hge
    have : 2 ^ 2048 < 2 ^ (i + 1) := pow_lt_pow_right₀ one_lt_two (by omega)
    omega
  have hpos : 0 < 2 ^ i := Nat.two_pow_pos i
  rw [addW_sum, BitVec.toNat_add, pow2Val_toNat hi, Nat.mod_eq_of_lt]
  rw [Nat.pow_succ] at h
  omega

/-- The loop's value, from its invariant. -/
theorem divLoop_val (cfg : Config) (a b : Val) (k : Nat) (q : Val) (cnt : Word) (hb : b ≠ 0)
    (hfit : q.toNat + 2 ^ k ≤ 2 ^ 2048) (hlow : b.toNat * q.toNat < a.toNat)
    (hhigh : a.toNat < b.toNat * (q.toNat + 2 ^ k)) :
    (divLoop cfg a b k q cnt).val.toNat = a.toNat / b.toNat := by
  have hb0 : 0 < b.toNat := toNat_pos hb
  induction k generalizing q cnt with
  | zero =>
    symm
    apply Nat.div_eq_of_lt_le
    · rw [Nat.mul_comm]; exact hlow.le
    · rw [Nat.mul_comm]; simpa [divLoop] using hhigh
  | succ i ih =>
    have hc := candidate_toNat cfg cnt hfit
    have hpow : 2 ^ (i + 1) = 2 ^ i + 2 ^ i := by rw [Nat.pow_succ, Nat.mul_two]
    simp only [divLoop, hc]
    split
    · rename_i hlt
      apply ih
      · rw [hc]; omega
      · rw [hc]; exact hlt
      · rw [hc, Nat.add_assoc, ← hpow]; exact hhigh
    · split
      · rename_i heq
        rw [hc, ← heq, Nat.mul_div_cancel_left _ hb0]
      · apply ih
        · omega
        · exact hlow
        · omega

/-- `DivW` is floor division for b ≠ 0 (44_div.md R197). -/
theorem divW_val (cfg : Config) (a b : Val) (cnt : Word) (hb : b ≠ 0) :
    (divW cfg a b cnt).val.toNat = a.toNat / b.toNat := by
  by_cases hlt : a.toNat < b.toNat
  · rw [divW, if_pos ((ltVal_iff a b).mpr hlt), Nat.div_eq_of_lt hlt]
    exact BitVec.toNat_zero
  · have hb0 : 0 < b.toNat := toNat_pos hb
    have ha : a ≠ 0 := by rintro rfl; simp at hlt; omega
    obtain ⟨hblo, hbhi⟩ := msbVal_bounds hb
    obtain ⟨halo, hahi⟩ := msbVal_bounds ha
    have hle : msbVal b ≤ msbVal a := by
      by_contra hgt
      have : 2 ^ (msbVal a + 1) ≤ 2 ^ msbVal b := pow_le_pow_right₀ one_le_two (by omega)
      omega
    rw [divW, if_neg (fun h => hlt ((ltVal_iff a b).mp h))]
    apply divLoop_val _ _ _ _ _ _ hb
    · have : 2 ^ (msbVal a - msbVal b + 1) ≤ 2 ^ 2048 :=
        pow_le_pow_right₀ one_le_two (by have := msbVal_lt a; omega)
      simpa using this
    · simp; omega
    · calc a.toNat < 2 ^ (msbVal a + 1) := hahi
        _ = 2 ^ msbVal b * 2 ^ (msbVal a - msbVal b + 1) := by
          rw [← Nat.pow_add]; exact congrArg (2 ^ ·) (by omega)
        _ ≤ b.toNat * 2 ^ (msbVal a - msbVal b + 1) := Nat.mul_le_mul_right _ hblo
        _ = _ := by simp

/-- The value of the quotient's bits from `k` up, when a candidate's bit is known to be set or clear. -/
theorem high_bits_of_bounds {q k Q : Nat} (hq : q = Q / 2 ^ (k + 1) * 2 ^ (k + 1)) :
    (q + 2 ^ k ≤ Q → Q / 2 ^ k * 2 ^ k = q + 2 ^ k) ∧ (Q < q + 2 ^ k → Q / 2 ^ k * 2 ^ k = q) := by
  have hpos : 0 < 2 ^ k := Nat.two_pow_pos k
  have hpow : 2 ^ (k + 1) = 2 * 2 ^ k := by rw [Nat.pow_succ, Nat.mul_comm]
  have hdm := Nat.div_add_mod Q (2 ^ (k + 1))
  have hmod := Nat.mod_lt Q (Nat.two_pow_pos (k + 1))
  have hq2 : q = 2 * (Q / 2 ^ (k + 1)) * 2 ^ k := by rw [hq, hpow]; ring
  rw [Nat.mul_comm] at hdm
  rw [← hq] at hdm
  rw [hpow] at hmod
  constructor
  · intro h
    have : Q / 2 ^ k = 2 * (Q / 2 ^ (k + 1)) + 1 := by
      apply Nat.div_eq_of_lt_le
      · rw [Nat.add_mul, ← hq2]; omega
      · rw [Nat.add_mul, Nat.add_mul, ← hq2]; omega
    rw [this, Nat.add_mul, ← hq2, Nat.one_mul]
  · intro h
    have : Q / 2 ^ k = 2 * (Q / 2 ^ (k + 1)) := by
      apply Nat.div_eq_of_lt_le
      · rw [← hq2]; omega
      · rw [Nat.add_mul, ← hq2]; omega
    rw [this, ← hq2]

/-- The loop's count, for the bit indices below `k`: every iteration down to the exact hit, or to 0 (44_div.md
R192). -/
theorem divLoop_cnt (cfg : Config) (a b : Val) (k : Nat) (q : Val) (cnt : Word) (hb : b ≠ 0)
    (hfit : q.toNat + 2 ^ k ≤ 2 ^ 2048) (hlow : b.toNat * q.toNat < a.toNat)
    (hq : q.toNat = a.toNat / b.toNat / 2 ^ k * 2 ^ k) :
    divLast a.toNat b.toNat ≤ k ∧
      (divLoop cfg a b k q cnt).cnt =
        ticks cfg (∑ i ∈ Finset.Ico (divLast a.toNat b.toNat) k,
          (1 + 2048 + popcount (BitVec.ofNat 2048 (divCandidate (a.toNat / b.toNat) i)))) cnt := by
  have hb0 : 0 < b.toNat := toNat_pos hb
  have hQ : a.toNat / b.toNat * b.toNat ≤ a.toNat := Nat.div_mul_le_self _ _
  have hQlt := Nat.lt_div_mul_add (a := a.toNat) hb0
  -- when the division is exact, a bit of the quotient is still to come
  have hlast : ∀ k q : Nat, b.toNat * q < a.toNat → q = a.toNat / b.toNat / 2 ^ k * 2 ^ k →
      divLast a.toNat b.toNat ≤ k := by
    intro k q h1 h2
    unfold divLast
    split
    · rename_i hdvd
      have hexact := Nat.div_mul_cancel hdvd
      have hne : a.toNat / b.toNat ≠ 0 := by
        intro h0; rw [h0] at hexact; omega
      by_contra hgt
      have hd : 2 ^ k ∣ a.toNat / b.toNat := (padicValNat_dvd_iff_le hne).mpr (by omega)
      rw [Nat.div_mul_cancel hd] at h2
      rw [h2, Nat.mul_comm, hexact] at h1
      exact lt_irrefl _ h1
    · exact Nat.zero_le _
  induction k generalizing q cnt with
  | zero =>
    refine ⟨hlast 0 _ hlow hq, ?_⟩
    simp [divLoop]
  | succ i ih =>
    refine ⟨hlast _ _ hlow hq, ?_⟩
    have hc := candidate_toNat cfg cnt hfit
    have hpow : 2 ^ (i + 1) = 2 ^ i + 2 ^ i := by rw [Nat.pow_succ, Nat.mul_two]
    obtain ⟨hset, hclear⟩ := high_bits_of_bounds hq
    have hcand : divCandidate (a.toNat / b.toNat) i = q.toNat + 2 ^ i := by rw [divCandidate, ← hq]
    have hval : (addW cfg q (pow2Val i) cnt).sum = BitVec.ofNat 2048 (divCandidate (a.toNat / b.toNat) i) := by
      rw [hcand, ← hc, BitVec.ofNat_toNat, BitVec.setWidth_eq]
    have hstep : (mulW cfg b (addW cfg q (pow2Val i) cnt).sum (addW cfg q (pow2Val i) cnt).cnt).cnt =
        ticks cfg (1 + 2048 + popcount (BitVec.ofNat 2048 (divCandidate (a.toNat / b.toNat) i))) cnt := by
      rw [mulW_cnt, addW_cnt, ticks_ticks, hval, Nat.add_assoc]
    have hmulc : b.toNat * (q.toNat + 2 ^ i) ≤ a.toNat → q.toNat + 2 ^ i ≤ a.toNat / b.toNat := by
      intro h
      rw [Nat.le_div_iff_mul_le hb0, Nat.mul_comm]; exact h
    have hsplit : ∀ {q' : Val}, divLast a.toNat b.toNat ≤ i →
        (divLoop cfg a b i q' (ticks cfg (1 + 2048 +
            popcount (BitVec.ofNat 2048 (divCandidate (a.toNat / b.toNat) i))) cnt)).cnt =
          ticks cfg (∑ j ∈ Finset.Ico (divLast a.toNat b.toNat) i,
            (1 + 2048 + popcount (BitVec.ofNat 2048 (divCandidate (a.toNat / b.toNat) j))))
            (ticks cfg (1 + 2048 +
              popcount (BitVec.ofNat 2048 (divCandidate (a.toNat / b.toNat) i))) cnt) →
        (divLoop cfg a b i q' (ticks cfg (1 + 2048 +
            popcount (BitVec.ofNat 2048 (divCandidate (a.toNat / b.toNat) i))) cnt)).cnt =
          ticks cfg (∑ j ∈ Finset.Ico (divLast a.toNat b.toNat) (i + 1),
            (1 + 2048 + popcount (BitVec.ofNat 2048 (divCandidate (a.toNat / b.toNat) j)))) cnt := by
      intro q' hle h
      rw [h, ticks_ticks, Finset.sum_Ico_succ_top hle, Nat.add_comm]
    simp only [divLoop, hc]
    rw [hstep]
    split
    · rename_i hlt
      have hih := ih (addW cfg q (pow2Val i) cnt).sum
        (ticks cfg (1 + 2048 + popcount (BitVec.ofNat 2048 (divCandidate (a.toNat / b.toNat) i))) cnt)
        (by rw [hc]; omega) (by rw [hc]; exact hlt) (by rw [hc]; exact (hset (hmulc hlt.le)).symm)
      exact hsplit hih.1 hih.2
    · split
      · rename_i heq
        have hdvd : b.toNat ∣ a.toNat := ⟨_, heq.symm⟩
        have hQeq : a.toNat / b.toNat = q.toNat + 2 ^ i := by
          rw [← heq, Nat.mul_div_cancel_left _ hb0]
        have hle : divLast a.toNat b.toNat ≤ i + 1 := hlast _ _ hlow hq
        have hdl : divLast a.toNat b.toNat = i := by
          have hne : a.toNat / b.toNat ≠ 0 := by
            rw [hQeq]; have := Nat.two_pow_pos i; omega
          have h1 : 2 ^ i ∣ a.toNat / b.toNat := ⟨a.toNat / b.toNat / 2 ^ i, by
            rw [Nat.mul_comm, hset (le_of_eq hQeq.symm), hQeq]⟩
          have h2 : ¬ 2 ^ (i + 1) ∣ a.toNat / b.toNat := by
            intro hd
            rw [Nat.div_mul_cancel hd] at hq
            have := Nat.two_pow_pos i
            omega
          rw [padicValNat_dvd_iff_le hne] at h1 h2
          rw [divLast, if_pos hdvd]
          omega
        rw [hdl, Finset.sum_Ico_succ_top (le_refl i), Finset.Ico_self, Finset.sum_empty, Nat.zero_add]
      · rename_i hnlt hne
        have hih := ih q
          (ticks cfg (1 + 2048 + popcount (BitVec.ofNat 2048 (divCandidate (a.toNat / b.toNat) i))) cnt)
          (by omega) hlow
          (by
            symm
            apply hclear
            rw [Nat.div_lt_iff_lt_mul hb0, Nat.mul_comm]
            omega)
        exact hsplit hih.1 hih.2

/-- `DivW`'s count (44_div.md R192). -/
theorem divW_cnt (cfg : Config) (a b : Val) (cnt : Word) (hb : b ≠ 0) :
    (divW cfg a b cnt).cnt = ticks cfg (divAdditions a.toNat b.toNat) cnt := by
  by_cases hlt : a.toNat < b.toNat
  · rw [divW, if_pos ((ltVal_iff a b).mpr hlt), divAdditions, if_pos hlt, ticks_zero]
  · have hb0 : 0 < b.toNat := toNat_pos hb
    have ha0 : 0 < a.toNat := by omega
    have ha : a ≠ 0 := by
      intro h
      rw [h] at ha0
      exact absurd BitVec.toNat_zero (Nat.ne_of_gt ha0)
    have hmsb : ∀ {x : Val}, x ≠ 0 → msbVal x = Nat.log2 x.toNat := by
      intro x hx
      obtain ⟨h1, h2⟩ := msbVal_bounds hx
      exact ((Nat.log2_eq_iff (Nat.ne_of_gt (toNat_pos hx))).mpr ⟨h1, h2⟩).symm
    obtain ⟨hblo, hbhi⟩ := msbVal_bounds hb
    obtain ⟨halo, hahi⟩ := msbVal_bounds ha
    have hle : msbVal b ≤ msbVal a := by
      by_contra hgt
      have : 2 ^ (msbVal a + 1) ≤ 2 ^ msbVal b := pow_le_pow_right₀ one_le_two (by omega)
      omega
    have hQ : a.toNat / b.toNat / 2 ^ (msbVal a - msbVal b + 1) = 0 := by
      apply Nat.div_eq_of_lt
      rw [Nat.div_lt_iff_lt_mul hb0, Nat.mul_comm]
      calc a.toNat < 2 ^ (msbVal a + 1) := hahi
        _ = 2 ^ msbVal b * 2 ^ (msbVal a - msbVal b + 1) := by
          rw [← Nat.pow_add]; exact congrArg (2 ^ ·) (by omega)
        _ ≤ b.toNat * 2 ^ (msbVal a - msbVal b + 1) := Nat.mul_le_mul_right _ hblo
    have h := divLoop_cnt cfg a b (msbVal a - msbVal b + 1) 0 cnt hb
      (by
        have : 2 ^ (msbVal a - msbVal b + 1) ≤ 2 ^ 2048 :=
          pow_le_pow_right₀ one_le_two (by have := msbVal_lt a; omega)
        simpa using this)
      (by simpa using ha0) (by rw [hQ]; simp)
    rw [divW, if_neg (fun hl => hlt ((ltVal_iff a b).mp hl)), h.2, divAdditions, if_neg hlt, hmsb ha, hmsb hb]
    rfl

end Sys2Proof.Laws
end

