-- ==== Sys2Proof/Laws/Ops.lean ====
section
/-! SUPPORT. What each shared operation can answer, said once: reading operands, completing, raising a fault; and
the fields of ST after each. -/

namespace Sys2Proof.Laws

open Sys2Proof Sys2Proof.Machine

/-! ### Completing and raising -/

theorem complete_next {s t : State} (h : complete s = .next t) : t = { s with st := withCode s.st 0 } := by
  cases h; rfl

theorem raise_next {k : FaultCode} {s t : State} (h : raise k s = .next t) :
    t = { s with st := withSticky (withCode s.st k.code) } := by
  cases h; rfl

/-! ### Operands -/

/-- A readable register is read and the command goes on. -/
theorem withVal_of_readable {x : Reg} {s : State} (k : Val → Answer) (h : s.readable x = true) :
    withVal x s k = k (s.val x) := if_pos h

/-- A command that went on has read a readable register. -/
theorem withVal_next {x : Reg} {s t : State} {k : Val → Answer} (h : withVal x s k = .next t) :
    s.readable x = true ∧ k (s.val x) = .next t := by
  unfold withVal at h
  split at h
  · exact ⟨‹_›, h⟩
  · cases h

theorem withAB_of_readable {s : State} (k : Val → Val → Answer) (ha : s.readable .a = true)
    (hb : s.readable .b = true) : withAB s k = k s.a s.b := by
  rw [withAB, withVal_of_readable _ ha, withVal_of_readable _ hb]; rfl

theorem withAB_next {s t : State} {k : Val → Val → Answer} (h : withAB s k = .next t) :
    s.readable .a = true ∧ s.readable .b = true ∧ k s.a s.b = .next t := by
  obtain ⟨ha, h⟩ := withVal_next h
  obtain ⟨hb, h⟩ := withVal_next h
  exact ⟨ha, hb, h⟩

/-- Without STRICT_UNWRITTEN every value register is readable (10_state.md R24). -/
theorem readable_of_not_strict {s : State} (x : Reg) (h : s.cfg.strictUnwritten = false) :
    s.readable x = true := by
  simp [State.readable, h]

/-! ### ST -/

theorem withCode_getLsbD (st : Word) (k : BitVec 4) (i : Nat) :
    (withCode st k).getLsbD i = if i < 4 then k.getLsbD i else st.getLsbD i := by
  rw [withCode, BitVec.getLsbD_append, BitVec.getLsbD_extractLsb']
  split
  · rfl
  · rw [Nat.add_sub_cancel' (by omega)]
    by_cases h : i < 64
    · simp [show i - 4 < 60 by omega]
    · simp [BitVec.getLsbD_of_ge st i (by omega)]

theorem withSticky_getLsbD (st : Word) (i : Nat) :
    (withSticky st).getLsbD i = (st.getLsbD i || decide (i = 8)) := by
  have h : (0x100 : Word).getLsbD i = decide (i = 8) := by
    change Nat.testBit (2 ^ 8) i = _
    rw [Nat.testBit_two_pow]
    exact decide_eq_decide.mpr eq_comm
  rw [withSticky, BitVec.getLsbD_or, h]

@[simp] theorem stCode_withCode (st : Word) (k : BitVec 4) : stCode (withCode st k) = k := by
  apply BitVec.eq_of_getLsbD_eq
  intro i hi
  rw [stCode, BitVec.getLsbD_extractLsb', withCode_getLsbD, if_pos (by omega)]
  simp [hi]

@[simp] theorem stSticky_withCode (st : Word) (k : BitVec 4) : stSticky (withCode st k) = stSticky st := by
  rw [stSticky, withCode_getLsbD, if_neg (by omega), stSticky]

@[simp] theorem stSticky_withSticky (st : Word) : stSticky (withSticky st) = true := by
  rw [stSticky, withSticky_getLsbD, decide_eq_true rfl, Bool.or_true]

/-- A field that does not hold bit 8 keeps its value when STICKY is set. -/
theorem field_withSticky (st : Word) (lo len : Nat) (h : 8 < lo ∨ lo + len ≤ 8) :
    (withSticky st).extractLsb' lo len = st.extractLsb' lo len := by
  apply BitVec.eq_of_getLsbD_eq
  intro i hi
  have h8 : decide (lo + i = 8) = false := decide_eq_false (by omega)
  rw [BitVec.getLsbD_extractLsb', BitVec.getLsbD_extractLsb', withSticky_getLsbD, h8, Bool.or_false]

/-- A field above CODE keeps its value when CODE is written. -/
theorem field_withCode (st : Word) (k : BitVec 4) (lo len : Nat) (h : 4 ≤ lo) :
    (withCode st k).extractLsb' lo len = st.extractLsb' lo len := by
  apply BitVec.eq_of_getLsbD_eq
  intro i hi
  rw [BitVec.getLsbD_extractLsb', BitVec.getLsbD_extractLsb', withCode_getLsbD, if_neg (by omega)]

@[simp] theorem stCode_withSticky (st : Word) : stCode (withSticky st) = stCode st :=
  field_withSticky st 0 4 (by omega)

/-- Completing keeps ST legal (10_state.md R27). -/
theorem stLegal_withCode_zero {st : Word} (h : stLegal st = true) : stLegal (withCode st 0) = true := by
  simp only [stLegal, Bool.and_eq_true] at h ⊢
  rw [field_withCode _ _ 4 4 (by omega), field_withCode _ _ 9 55 (by omega), stCode_withCode]
  exact ⟨⟨⟨h.1.1.1, h.1.1.2⟩, rfl⟩, rfl⟩

/-- Raising a fault keeps ST legal (10_state.md R27; 60_exceptions.md R273). -/
theorem stLegal_raise {st : Word} (k : FaultCode) (h : stLegal st = true) :
    stLegal (withSticky (withCode st k.code)) = true := by
  simp only [stLegal, Bool.and_eq_true] at h ⊢
  rw [field_withSticky _ 4 4 (by omega), field_withSticky _ 9 55 (by omega),
    field_withCode _ _ 4 4 (by omega), field_withCode _ _ 9 55 (by omega), stCode_withSticky,
    stCode_withCode, stSticky_withSticky, Bool.or_true]
  refine ⟨⟨⟨h.1.1.1, h.1.1.2⟩, ?_⟩, rfl⟩
  cases k <;> rfl

end Sys2Proof.Laws
end

