-- ==== Sys2Proof/Laws/Subtractor.lean ====
section
/-! SUPPORT. The subtractor is subtraction modulo 2^2048 (42_sub.md R150, R153). -/

namespace Sys2Proof.Laws

open Sys2Proof Sys2Proof.Machine

/-- The limb step's difference and borrow are exact. -/
theorem limbSub_exact (x y : Word) (b : Bool) :
    (limbSub x y b).diff.toNat + y.toNat + b.toNat = x.toNat + 2 ^ 64 * (limbSub x y b).borrow.toNat := by
  have hx := x.isLt
  have hy := y.isLt
  cases b
  · by_cases h : x.toNat < y.toNat
    · have hs : (x - y).toNat = 2 ^ 64 + x.toNat - y.toNat := by
        rw [BitVec.toNat_sub]; omega
      simp [limbSub, h, hs]; omega
    · have hs : (x - y).toNat = x.toNat - y.toNat := by
        rw [BitVec.toNat_sub]; omega
      simp [limbSub, h, hs]; omega
  · by_cases h : x.toNat < y.toNat + 1
    · have hs : (x - y - 1#64).toNat = 2 ^ 64 + x.toNat - y.toNat - 1 := by
        simp only [BitVec.toNat_sub, BitVec.toNat_ofNat]; omega
      simp [limbSub, h, hs]; omega
    · have hs : (x - y - 1#64).toNat = x.toNat - y.toNat - 1 := by
        simp only [BitVec.toNat_sub, BitVec.toNat_ofNat]; omega
      simp [limbSub, h, hs]; omega

/-- The subtractor after `k` limbs: the exact difference of the low parts, with its borrow. -/
theorem subLimbs_exact (x y : Val) (k : Nat) (hk : k ≤ 32) :
    (subLimbs x y k).diff.toNat < 2 ^ (64 * k) ∧
      (subLimbs x y k).diff.toNat + y.toNat % 2 ^ (64 * k) =
        x.toNat % 2 ^ (64 * k) + 2 ^ (64 * k) * (subLimbs x y k).borrow.toNat := by
  induction k with
  | zero => simp [subLimbs, Nat.mod_one]
  | succ k ih =>
    obtain ⟨hlt, hdiff⟩ := ih (by omega)
    have hstep := limbSub_exact (limb x k) (limb y k) (subLimbs x y k).borrow
    have hset := setLimb_toNat_of_lt (limbSub (limb x k) (limb y k) (subLimbs x y k).borrow).diff
      (show k < 32 by omega) hlt
    have hs := (limbSub (limb x k) (limb y k) (subLimbs x y k).borrow).diff.isLt
    have hpow : 2 ^ (64 * (k + 1)) = 2 ^ (64 * k) * 2 ^ 64 := by
      rw [← Nat.pow_add]; ring_nf
    simp only [subLimbs]
    rw [mod_limb_succ, mod_limb_succ, hset, hpow]
    generalize 2 ^ (64 * k) = P at *
    constructor
    · nlinarith
    · nlinarith [congrArg (P * ·) hstep]

/-- `SubW` is the wrapped difference (42_sub.md R153). -/
theorem subW_eq (x y : Val) : subW x y = x - y := by
  obtain ⟨-, h⟩ := subLimbs_exact x y 32 (by omega)
  rw [mod_width, mod_width] at h
  have hadd : subW x y + y = x := by
    apply BitVec.eq_of_toNat_eq
    rw [BitVec.toNat_add]
    have : (subW x y).toNat = (subLimbs x y 32).diff.toNat := rfl
    rw [this, h, show (64 * 32 : Nat) = 2048 from rfl, Nat.add_mul_mod_self_left]
    exact BitVec.toNat_mod_cancel x
  rw [← hadd, BitVec.add_sub_cancel, hadd]

end Sys2Proof.Laws
end

