-- ==== Sys2Proof/Laws/Exec.lean ====
section
/-! SUPPORT. What a command that completes can have done, said once for all commands: a fault, with its cause, or the
command's own effect in closed form. Later proofs about a completed command split this instead of the meanings. -/

namespace Sys2Proof.Laws

open Sys2Proof Sys2Proof.Machine Sys2Proof.Reference

/-- The operand check that raises `k` in command `i` (60_exceptions.md R271). -/
def Trips (i : Instr) (s : State) : FaultCode → Prop
  | .illegal => False
  | .divZero => i = .div ∧ s.b = 0
  | .badIndex => ∃ n : Word, (i = .bit n ∨ i = .pow2 n) ∧ 2048 ≤ n.toNat
  | .zeroOperand => i = .msb ∧ s.a = 0

/-- The command's own effect, its checks passed, but for ST: the state before `ST.CODE <- 0`. -/
def ownEffect (i : Instr) (s : State) : State :=
  match i with
  | .nop => s
  | .ldi d imm => s.setVal d (immValue imm)
  | .mov d src => s.setVal d (s.val src)
  | .add => { s.setVal .r (s.a + s.b) with cnt := ticks s.cfg 1 s.cnt }
  | .sub => s.setVal .r (s.a - s.b)
  | .mul => { s.setVal .r (s.a * s.b) with cnt := ticks s.cfg (2048 + popcount s.b) s.cnt }
  | .div =>
    { s.setVal .r (BitVec.ofNat 2048 (s.a.toNat / s.b.toNat)) with
      cnt := ticks s.cfg (divAdditions s.a.toNat s.b.toNat) s.cnt }
  | .lt => { s with f := flagOf (decide (s.a.toNat < s.b.toNat)) }
  | .eq => { s with f := flagOf (decide (s.a = s.b)) }
  | .lzc => { s with n := BitVec.ofNat 64 (lzcVal s.a) }
  | .msb => { s with n := BitVec.ofNat 64 (msbVal s.a) }
  | .bit n => { s with f := flagOf (s.a.getLsbD n.toNat) }
  | .pow2 n => s.setVal .r (pow2Val n.toNat)
  | .print =>
    { s.emit ((decimalDigits s.a.toNat).map digitByte) with
      cnt := ticks s.cfg (printAdditions s.a.toNat) s.cnt }
  | .rdcnt => { s with n := s.cnt }

theorem indexLegal_iff (n : Word) : indexLegal n = true ↔ n.toNat < 2048 := decide_eq_true_iff

theorem eqVal_decide (x y : Val) : eqVal x y = decide (x = y) := Bool.eq_iff_iff.mpr (by rw [eqVal_iff, decide_eq_true_iff])

theorem ltVal_decide (x y : Val) : ltVal x y = decide (x.toNat < y.toNat) :=
  Bool.eq_iff_iff.mpr (by rw [ltVal_iff, decide_eq_true_iff])

/-- A command that completes has either faulted, for the cause its code names, or had its own effect with no check
tripped (60_exceptions.md R270, R272, R273). -/
theorem exec_cases {i : Instr} {s t : State} (h : exec i s = .next t) :
    (∃ k, Trips i s k ∧ t = { s with st := withSticky (withCode s.st k.code) }) ∨
      ((∀ k, ¬ Trips i s k) ∧ t = { ownEffect i s with st := withCode s.st 0 }) := by
  have quiet : ∀ {j : Instr}, j ≠ .div → (∀ n, j ≠ .bit n) → (∀ n, j ≠ .pow2 n) → j ≠ .msb →
      ∀ k, ¬ Trips j s k := by
    intro j h1 h2 h3 h4 k
    cases k <;> simp [Trips, h1, h2, h3, h4]
  cases i with
  | nop => exact .inr ⟨quiet (by simp) (by simp) (by simp) (by simp), complete_next h⟩
  | ldi d imm =>
    exact .inr ⟨quiet (by simp) (by simp) (by simp) (by simp), by simpa [ownEffect] using complete_next h⟩
  | mov d src =>
    rw [exec, execMov] at h
    obtain ⟨_, h⟩ := withVal_next h
    exact .inr ⟨quiet (by simp) (by simp) (by simp) (by simp), by simpa [ownEffect] using complete_next h⟩
  | add =>
    rw [exec, execAdd] at h
    obtain ⟨_, _, h⟩ := withAB_next h
    have := complete_next h
    exact .inr ⟨quiet (by simp) (by simp) (by simp) (by simp), by
      simpa [ownEffect, addW_sum, addW_cnt, tick_eq] using this⟩
  | sub =>
    rw [exec, execSub] at h
    obtain ⟨_, _, h⟩ := withAB_next h
    exact .inr ⟨quiet (by simp) (by simp) (by simp) (by simp), by
      simpa [ownEffect, subW_eq] using complete_next h⟩
  | mul =>
    rw [exec, execMul] at h
    obtain ⟨_, _, h⟩ := withAB_next h
    exact .inr ⟨quiet (by simp) (by simp) (by simp) (by simp), by
      simpa [ownEffect, mulW_val, mulW_cnt] using complete_next h⟩
  | div =>
    rw [exec, execDiv] at h
    obtain ⟨_, _, h⟩ := withAB_next h
    by_cases hb : s.b = 0
    · rw [if_pos hb] at h
      exact .inl ⟨.divZero, ⟨rfl, hb⟩, raise_next h⟩
    · rw [if_neg hb] at h
      have hv : (divW s.cfg s.a s.b s.cnt).val = BitVec.ofNat 2048 (s.a.toNat / s.b.toNat) := by
        apply BitVec.eq_of_toNat_eq
        rw [divW_val _ _ _ _ hb, BitVec.toNat_ofNat]
        exact (Nat.mod_eq_of_lt (lt_of_le_of_lt (Nat.div_le_self _ _) s.a.isLt)).symm
      have ht := complete_next h
      dsimp only at ht
      rw [divW_cnt _ _ _ _ hb, hv] at ht
      refine .inr ⟨fun k => ?_, by simpa [ownEffect] using ht⟩
      cases k <;> simp only [Trips, reduceCtorEq, hb, and_false, false_and, or_self, exists_false, not_false_eq_true]
  | lt =>
    rw [exec, execLt] at h
    obtain ⟨_, _, h⟩ := withAB_next h
    exact .inr ⟨quiet (by simp) (by simp) (by simp) (by simp), by
      simpa [ownEffect, ltVal_decide] using complete_next h⟩
  | eq =>
    rw [exec, execEq] at h
    obtain ⟨_, _, h⟩ := withAB_next h
    exact .inr ⟨quiet (by simp) (by simp) (by simp) (by simp), by
      simpa [ownEffect, eqVal_decide] using complete_next h⟩
  | lzc =>
    rw [exec, execLzc] at h
    obtain ⟨_, h⟩ := withVal_next h
    exact .inr ⟨quiet (by simp) (by simp) (by simp) (by simp), complete_next h⟩
  | msb =>
    rw [exec, execMsb] at h
    obtain ⟨_, h⟩ := withVal_next h
    by_cases ha : s.a = 0
    · rw [if_pos (show s.val .a = 0 from ha)] at h
      exact .inl ⟨.zeroOperand, ⟨rfl, ha⟩, raise_next h⟩
    · rw [if_neg (show ¬ s.val .a = 0 from ha)] at h
      refine .inr ⟨fun k => ?_, complete_next h⟩
      cases k <;> simp only [Trips, reduceCtorEq, ha, and_false, false_and, or_self, exists_false, not_false_eq_true]
  | bit n =>
    rw [exec, execBit] at h
    obtain ⟨_, h⟩ := withVal_next h
    by_cases hn : n.toNat < 2048
    · rw [if_pos ((indexLegal_iff n).mpr hn)] at h
      refine .inr ⟨fun k => ?_, complete_next h⟩
      cases k <;> simp [Trips, hn]
    · rw [if_neg (mt (indexLegal_iff n).mp hn)] at h
      exact .inl ⟨.badIndex, ⟨n, .inl rfl, Nat.le_of_not_lt hn⟩, raise_next h⟩
  | pow2 n =>
    rw [exec, execPow2] at h
    by_cases hn : n.toNat < 2048
    · rw [if_pos ((indexLegal_iff n).mpr hn)] at h
      refine .inr ⟨fun k => ?_, by simpa [ownEffect] using complete_next h⟩
      cases k <;> simp [Trips, hn]
    · rw [if_neg (mt (indexLegal_iff n).mp hn)] at h
      exact .inl ⟨.badIndex, ⟨n, .inr rfl, Nat.le_of_not_lt hn⟩, raise_next h⟩
  | print =>
    rw [exec, execPrint] at h
    obtain ⟨_, h⟩ := withVal_next h
    have ht := complete_next h
    dsimp only at ht
    rw [renderW_eq] at ht
    exact .inr ⟨quiet (by simp) (by simp) (by simp) (by simp), by simpa [ownEffect, State.val] using ht⟩
  | rdcnt => exact .inr ⟨quiet (by simp) (by simp) (by simp) (by simp), complete_next h⟩

/-- A command that completes leaves CMD_IMM, the parameters and the host's own lists as they were. -/
theorem exec_keeps {i : Instr} {s t : State} (h : exec i s = .next t) :
    t.cmdImm = s.cmdImm ∧ t.cfg = s.cfg ∧ t.pending = s.pending ∧ t.returned = s.returned := by
  rcases exec_cases h with ⟨k, _, rfl⟩ | ⟨_, rfl⟩
  · exact ⟨rfl, rfl, rfl, rfl⟩
  · cases i <;> simp [ownEffect]

end Sys2Proof.Laws
end

