-- ==== Sys2Proof/Laws/PerInstr.lean ====
section
/-! SUPPORT. One lemma per command for the family EncodedWellFormed: the word the encoder writes is a row of the
opcode map (30_encoding.md R85), which WellFormed.lean states by match and mask. -/

namespace Sys2Proof.Laws.EncodedWellFormed

open Sys2Proof

/-- The encoder writes a well-formed command word. -/
def Statement (i : Instr) : Prop := wellFormed (encode i).busWord = true

theorem nop : Statement .nop := rfl
theorem ldi (d : Reg) (imm : Word) : Statement (.ldi d imm) := by
  change wellFormed (encode (.ldi d 0)).busWord = true
  cases d <;> decide
theorem mov (d src : Reg) : Statement (.mov d src) := by
  unfold Statement
  cases d <;> cases src <;> decide
theorem add : Statement .add := rfl
theorem sub : Statement .sub := rfl
theorem mul : Statement .mul := rfl
theorem div : Statement .div := rfl
theorem lt : Statement .lt := rfl
theorem eq : Statement .eq := rfl
theorem lzc : Statement .lzc := rfl
theorem msb : Statement .msb := rfl
theorem bit (idx : Word) : Statement (.bit idx) := by
  change wellFormed (encode (.bit 0)).busWord = true
  decide
theorem pow2 (idx : Word) : Statement (.pow2 idx) := by
  change wellFormed (encode (.pow2 0)).busWord = true
  decide
theorem print : Statement .print := rfl
theorem rdcnt : Statement .rdcnt := rfl

end Sys2Proof.Laws.EncodedWellFormed
end

