-- ==== Sys2Proof/Laws/Run.lean ====
section
/-! SUPPORT. What a completed step can have done, said once for all host accesses, and runs as steps. -/

namespace Sys2Proof.Laws

open Sys2Proof Sys2Proof.Machine

@[simp] theorem ownEffect_st (i : Instr) (s : State) : (ownEffect i s).st = s.st := by
  cases i <;> simp [ownEffect]

/-- An issued word that completes has faulted, or had its command's own effect (20_memory.md R57). -/
theorem issue_cases {v : Word} {s t : State} (h : issue v s = .next t) :
    (∃ k : FaultCode, t = { s with st := withSticky (withCode s.st k.code) }) ∨
      ∃ i, decode v s.cmdImm = .ok i ∧ (∀ k, ¬ Trips i s k) ∧ t = { ownEffect i s with st := withCode s.st 0 } := by
  unfold issue at h
  split at h
  · rename_i i hi
    rcases exec_cases h with ⟨k, _, ht⟩ | ⟨hk, ht⟩
    · exact .inl ⟨k, ht⟩
    · exact .inr ⟨i, hi, hk, ht⟩
  · exact .inl ⟨_, raise_next h⟩

/-- What a completed step did, by the host's oldest access. -/
theorem step_cases {s t : State} (h : step s = .next t) :
    (s.pending = [] ∧ t = s) ∨
      (∃ addr rest, s.pending = .read addr :: rest ∧
        t = { s with pending := rest, returned := s.returned ++ [memRead s addr] }) ∨
      (∃ during rest, s.pending = .reset during :: rest ∧ t = State.applyReset { s with pending := rest }) ∨
      ∃ addr v rest, s.pending = .write addr v :: rest ∧
        ((∃ x k, k < 32 ∧ limbAt addr = some (x, k) ∧
            t = ({ s with pending := rest } : State).writeLimb x k v) ∨
          (addr = 0x64 ∧ t = { s with pending := rest, cmdImm := v }) ∨
          (0x60 ≤ addr ∧ addr ≠ 0x64 ∧ addr ≠ 0x65 ∧ t = { s with pending := rest }) ∨
          (addr = 0x65 ∧ issue v { s with pending := rest } = .next t)) := by
  cases hp : s.pending with
  | nil =>
    rw [step_idle hp] at h
    cases h
    exact .inl ⟨rfl, rfl⟩
  | cons acc rest =>
    refine .inr ?_
    rw [step_access hp] at h
    cases acc with
    | read addr => exact .inl ⟨_, _, rfl, hostRead_next h⟩
    | reset during =>
      cases h
      exact .inr (.inl ⟨_, _, rfl, rfl⟩)
    | write addr v =>
      refine .inr (.inr ⟨_, _, _, rfl, ?_⟩)
      have hw := (hostWrite_next h).2
      rcases memWrite_cases addr v { s with pending := rest } with
        ⟨x, k, hl, hk, e⟩ | ⟨ha, e⟩ | ⟨ha, e⟩ | ⟨h1, h2, h3, e⟩ <;> rw [e] at hw
      · cases hw; exact .inl ⟨_, _, hk, hl, rfl⟩
      · cases hw; exact .inr (.inl ⟨ha, rfl⟩)
      · exact .inr (.inr (.inr ⟨ha, hw⟩))
      · cases hw; exact .inr (.inr (.inl ⟨h1, h2, h3, rfl⟩))

/-- A step takes one access off the waiting list and never changes the parameters (20_memory.md R62; 10_state.md
R36). -/
theorem step_pending {s t : State} (h : step s = .next t) : t.pending = s.pending.drop 1 ∧ t.cfg = s.cfg := by
  rcases step_cases h with ⟨hp, rfl⟩ | ⟨_, _, hp, rfl⟩ | ⟨_, _, hp, rfl⟩ |
    ⟨_, _, _, hp, ⟨_, _, _, _, rfl⟩ | ⟨_, rfl⟩ | ⟨_, _, _, rfl⟩ | ⟨_, h⟩⟩ <;> rw [hp]
  · exact ⟨rfl, rfl⟩
  · exact ⟨rfl, rfl⟩
  · exact ⟨rfl, rfl⟩
  · exact ⟨writeLimb_pending _ _ _ _, writeLimb_cfg _ _ _ _⟩
  · exact ⟨rfl, rfl⟩
  · exact ⟨rfl, rfl⟩
  · unfold issue at h
    split at h
    · obtain ⟨_, hc, hq, _⟩ := exec_keeps h
      exact ⟨hq, hc⟩
    · cases raise_next h
      exact ⟨rfl, rfl⟩

/-- A run of n + 1 steps that ends is a step and a run of n, on any machine. -/
theorem run_succ_of (M : Host.Core) {n : Nat} {s t : M.State} :
    M.run (n + 1) s = .next t ↔ ∃ u, M.step s = .next u ∧ M.run n u = .next t := by
  rw [Host.Core.run]
  split
  · rename_i u hu
    rw [hu]
    exact ⟨fun h => ⟨u, rfl, h⟩, fun ⟨w, hw, h⟩ => by cases hw; exact h⟩
  · rename_i r hr
    rw [hr]
    exact ⟨fun h => (by cases h), fun ⟨_, hw, _⟩ => (by cases hw)⟩
  · rename_i r hr
    rw [hr]
    exact ⟨fun h => (by cases h), fun ⟨_, hw, _⟩ => (by cases hw)⟩

/-- A run of n + 1 steps that ends is a step and a run of n. -/
theorem run_succ {n : Nat} {s t : State} :
    Host.Core.run Sys2Proof.core (n + 1) s = .next t ↔
      ∃ u : State, step s = .next u ∧ Host.Core.run Sys2Proof.core n u = .next t :=
  run_succ_of Sys2Proof.core

end Sys2Proof.Laws
end

