-- ==== Sys2Proof/Tests/Slice0.lean ====
section
/-! SUPPORT. Tests of the model. The expected values are those of 95_test_vectors.md, by the section named at each
group; the command words are written out from 30_encoding.md R81, R82, R85. Each test is one command or one step. The
witnesses at the end show a concrete state and operands that meet every hypothesis of a statement together. -/

namespace Sys2Proof.Tests

open Sys2Proof Sys2Proof.Machine Sys2Proof.Reference Sys2Proof.Safety

-- One theorem at a time: the kernel evaluations of this file, all waiting for one another, would each hold a thread.
set_option Elab.async false

/-- The reset state with A and B preset (95_test_vectors.md, Notation). -/
def preset (a b : Nat) : State := { State.reset with a := BitVec.ofNat 2048 a, b := BitVec.ofNat 2048 b }

/-- The all-ones value M. -/
def allOnes : Nat := 2 ^ 2048 - 1

/-- A field of the next state; none where the step stops. -/
def nextField {α : Type} (f : State → α) : Answer → Option α
  | .next t => some (f t)
  | .fault _ => none
  | .refused _ => none

/-- The step completes. -/
def completes (o : Answer) : Bool := (nextField (fun _ => ()) o).isSome

/-- A state whose host makes the accesses `accs` next. -/
def waiting (s : State) (accs : List HostAccess) : State := { s with pending := accs }

/-- A state of a strict block (STRICT_UNWRITTEN true) with the given written masks. -/
def strictState (wa wb wr : BitVec 32) : State :=
  { State.reset with cfg := { strictUnwritten := true }, written := ⟨wa, wb, wr⟩ }

/-! ### WellFormed: an ill-formed word for each check (section 2.9) -/

theorem test_wf_bus_high : wellFormed 0x0000000100000010 = false := by decide
theorem test_wf_reserved_bits : wellFormed 0xFF10 = false ∧ wellFormed 0x1000 = false := by decide
theorem test_wf_unassigned_opcode : wellFormed 0x03 = false ∧ wellFormed 0xFF = false := by decide
theorem test_wf_unused_fields :
    wellFormed 0x310 = false ∧ wellFormed 0x410 = false ∧ wellFormed 0x832 = false ∧ wellFormed 0x401 = false := by
  decide
theorem test_wf_reserved_destination : wellFormed 0x301 = false ∧ wellFormed 0xB02 = false := by decide
theorem test_wf_reserved_source : wellFormed 0xC02 = false ∧ wellFormed 0xE02 = false := by decide
theorem test_wf_legal_words : wellFormed 0x402 = true ∧ wellFormed 0x10 = true ∧ wellFormed 0x201 = true := by decide

/-! ### Decoding: every command's word, bit by bit from the opcode map -/

theorem test_decode_nop : decode 0b00000000000000000000_00_00_00000000 9 = .ok .nop := by decide
theorem test_decode_ldi : decode 0b00000000000000000000_00_10_00000001 9 = .ok (.ldi .r 9) := by decide
theorem test_decode_mov : decode 0b00000000000000000000_10_01_00000010 9 = .ok (.mov .b .r) := by decide
theorem test_decode_add : decode 0b00000000000000000000_00_00_00010000 9 = .ok .add := by decide
theorem test_decode_sub : decode 0b00000000000000000000_00_00_00010001 9 = .ok .sub := by decide
theorem test_decode_mul : decode 0b00000000000000000000_00_00_00010010 9 = .ok .mul := by decide
theorem test_decode_div : decode 0b00000000000000000000_00_00_00010011 9 = .ok .div := by decide
theorem test_decode_lt : decode 0b00000000000000000000_00_00_00100000 9 = .ok .lt := by decide
theorem test_decode_eq : decode 0b00000000000000000000_00_00_00100001 9 = .ok .eq := by decide
theorem test_decode_lzc : decode 0b00000000000000000000_00_00_00110000 9 = .ok .lzc := by decide
theorem test_decode_msb : decode 0b00000000000000000000_00_00_00110001 9 = .ok .msb := by decide
theorem test_decode_bit : decode 0b00000000000000000000_00_00_00110010 9 = .ok (.bit 9) := by decide
theorem test_decode_pow2 : decode 0b00000000000000000000_00_00_00110011 9 = .ok (.pow2 9) := by decide
theorem test_decode_print : decode 0b00000000000000000000_00_00_01000000 9 = .ok .print := by decide
theorem test_decode_rdcnt : decode 0b00000000000000000000_00_00_01010000 9 = .ok .rdcnt := by decide

theorem test_decode_refusals :
    decode 0x0000000100000010 0 = .error .busHigh ∧ decode 0xFF10 0 = .error .reservedBits ∧
      decode 0x3 0 = .error .opcode ∧ decode 0x310 0 = .error .unusedField ∧
      decode 0xC02 0 = .error .selector := by decide

/-- CTRL in bits 31:0 and IMM in bits 95:32 (30_encoding.md R80; log entry 11). -/
theorem test_table_word :
    decodeTableWord 96 0x000000000000000700000101 = some (.ldi .b 7) ∧ decodeTableWord 32 0x10 = some .add ∧
      decodeTableWord 32 0x310 = none := by decide

/-! ### Commands (sections 2.1 to 2.8) -/

theorem test_ldi_b : nextField (·.b) (exec (.ldi .b 7) State.reset) = some 7 := by decide +kernel
theorem test_ldi_clears_upper_limbs : nextField (·.a) (exec (.ldi .a 0) (preset allOnes 0)) = some 0 := by
  decide +kernel

theorem test_mov_a_b : nextField (fun t => (t.a, t.b)) (exec (.mov .a .b) (preset 5 9)) = some (9, 9) := by
  decide +kernel
theorem test_mov_a_a : nextField (fun t => (t.a, t.st)) (exec (.mov .a .a) (preset 5 9)) = some (5, 0) := by
  decide +kernel

theorem test_lt_high_limb_decides : nextField (·.f) (exec .lt (preset (2 ^ 64) (2 ^ 64 - 1))) = some 0 := by
  decide +kernel
theorem test_lt_top_bit : nextField (·.f) (exec .lt (preset (2 ^ 2047) (2 ^ 2047 + 1))) = some 1 := by
  decide +kernel
theorem test_eq_same : nextField (·.f) (exec .eq (preset 7 7)) = some 1 := by decide +kernel
theorem test_eq_differ : nextField (·.f) (exec .eq (preset allOnes 0)) = some 0 := by decide +kernel

theorem test_limb_add_equal_sum : limbAdd (BitVec.allOnes 64) 5 true = ⟨5, true⟩ := by decide +kernel
theorem test_limb_add_naive_check_fails : limbAdd 5 (BitVec.allOnes 64) true = ⟨5, true⟩ := by decide +kernel
theorem test_add_wraps :
    nextField (fun t => (t.r, t.cnt)) (exec .add (preset allOnes 1)) = some (0, 1) := by decide +kernel
theorem test_add_ripples :
    nextField (fun t => t.r.toNat) (exec .add (preset 1 (2 ^ 128 - 1))) = some (2 ^ 128) := by decide +kernel

theorem test_limb_sub_equal_with_borrow : limbSub 5 5 true = ⟨BitVec.allOnes 64, true⟩ := by decide +kernel
theorem test_limb_sub_wide_subtrahend : limbSub 5 (BitVec.allOnes 64) true = ⟨5, true⟩ := by decide +kernel
theorem test_sub_underflows :
    nextField (fun t => (t.r.toNat, t.cnt)) (exec .sub (preset 5 7)) = some (allOnes - 1, 0) := by decide +kernel
theorem test_sub_borrow_chain :
    nextField (fun t => t.r.toNat) (exec .sub (preset (2 ^ 128) (2 ^ 128 - 2 ^ 64 + 1))) = some (2 ^ 64 - 1) := by
  decide +kernel

theorem test_mul_6_7 :
    nextField (fun t => (t.r, t.cnt)) (exec .mul (preset 6 7)) = some (42, 2051) := by decide +kernel
theorem test_mul_m_3 :
    nextField (fun t => (t.r.toNat, t.cnt)) (exec .mul (preset allOnes 3)) = some (allOnes - 2, 2050) := by
  decide +kernel

theorem test_div_42_6 :
    nextField (fun t => (t.r, t.cnt)) (exec .div (preset 42 6)) = some (7, 8203) := by decide +kernel
theorem test_div_by_zero :
    nextField (fun t => (t.r, t.cnt, t.st)) (exec .div (preset 42 0)) = some (0, 0, 0x102) := by decide +kernel

theorem test_lzc_42 : nextField (·.n) (exec .lzc (preset 42 0)) = some 2042 := by decide +kernel
theorem test_lzc_zero : nextField (·.n) (exec .lzc (preset 0 0)) = some 2048 := by decide +kernel
theorem test_msb_top : nextField (·.n) (exec .msb (preset (2 ^ 2047) 0)) = some 2047 := by decide +kernel
theorem test_msb_zero : nextField (fun t => (t.n, t.st)) (exec .msb (preset 0 0)) = some (0, 0x104) := by
  decide +kernel
theorem test_bit_top : nextField (·.f) (exec (.bit 2047) (preset (2 ^ 2047) 0)) = some 1 := by decide +kernel
theorem test_bit_index : nextField (fun t => (t.f, t.st)) (exec (.bit 2048) (preset 42 0)) = some (0, 0x103) := by
  decide +kernel
theorem test_pow2_100 : nextField (fun t => limb t.r 1) (exec (.pow2 100) State.reset) = some 0x1000000000 := by
  decide +kernel
theorem test_pow2_index : nextField (fun t => (t.r, t.st)) (exec (.pow2 2048) State.reset) = some (0, 0x103) := by
  decide +kernel

theorem test_print_zero :
    nextField (fun t => (t.out, t.cnt)) (exec .print State.reset) = some ([0x30], 1) := by decide +kernel
theorem test_print_42 :
    nextField (fun t => (t.out, t.cnt)) (exec .print (preset 42 0)) = some ([0x34, 0x32], 18) := by decide +kernel

theorem test_nop_keeps_sticky :
    nextField (·.st) (exec .nop { State.reset with st := 0x102 }) = some 0x100 := by decide +kernel
theorem test_rdcnt : nextField (·.n) (exec .rdcnt { State.reset with cnt := 1 }) = some 1 := by decide +kernel

/-! ### Faults and the host bus (sections 2.9, 2.10) -/

/-- With B = 0, a DIV word with S = 1 is ILLEGAL, not DIVZERO (60_exceptions.md R272). -/
theorem test_illegal_before_divzero :
    nextField (·.st) (step (waiting (preset 5 0) [.write 0x65 0x413])) = some 0x101 := by decide +kernel
theorem test_write_one_limb :
    nextField (fun t => t.a.toNat) (step (waiting State.reset [.write 0x01 1])) = some (2 ^ 64) := by
  decide +kernel
theorem test_write_cnt_ignored :
    nextField (fun t => (t.cnt, t.st)) (step (waiting State.reset [.write 0x63 99])) = some (0, 0) := by
  decide +kernel
theorem test_write_reserved_ignored :
    step (waiting State.reset [.write 0x80 7]) = .next State.reset := by rfl
theorem test_read_flag :
    nextField (·.returned) (step (waiting { State.reset with f := 1 } [.read 0x60])) = some [1] := by
  decide +kernel
theorem test_read_cmd_ctrl :
    nextField (·.returned) (step (waiting { State.reset with cmdImm := 42 } [.read 0x65])) = some [0] := by
  decide +kernel
theorem test_read_cmd_imm :
    nextField (·.returned) (step (waiting { State.reset with cmdImm := 42 } [.read 0x64])) = some [42] := by
  decide +kernel
theorem test_issue_runs_command :
    nextField (fun t => (t.r, t.cnt)) (step (waiting (preset 5 9) [.write 0x65 0x10])) = some (14, 1) := by
  decide +kernel
theorem test_placed_word_runs :
    nextField (·.b) (step (State.reset.withFetchWord 96 0x000000000000000700000101)) = some 7 := by
  decide +kernel
theorem test_reset_while_idle :
    nextField (fun t => (t.a, t.st)) (step (waiting { preset 5 9 with st := 0x102 } [.reset none])) = some (0, 0) := by
  decide +kernel

/-! ### Assembly text (30_encoding.md R90, R91) -/

theorem test_assemble_hex : assembleLine "LDI A, 0x10" = .ok [.ldi .a 16] := by decide
theorem test_assemble_pseudo : assembleLine "CLR R ; zero" = .ok [.ldi .r 0] ∧ assembleLine "SWAP" = .ok swapExpansion := by
  decide
theorem test_assemble_refuses :
    assembleLine "FOO" = .error .mnemonic ∧ assembleLine "LDI A, -1" = .error .number ∧
      assembleLine "MOV A" = .error .shape := by decide

/-! ### Witnesses: the hypotheses of every statement can be met -/

theorem completes_next {o : Answer} (h : completes o = true) : ∃ t, o = .next t := by
  cases o with
  | next t => exact ⟨t, rfl⟩
  | fault r => cases h
  | refused r => cases h

/-- DividerComputesFloor, DividerCountsExecutedIterations, SubtractThenAddRestores: a nonzero divisor not above the
dividend, at the first and the last index. -/
theorem witness_divider :
    (6 : Val) ≠ 0 ∧ (6 : Val).toNat ≤ (42 : Val).toNat ∧ 0 ≤ divFirst 42 6 ∧ divFirst 42 6 ≤ divFirst 42 6 := by
  decide +kernel

/-- DigitTrialsFindTheDigit, at the digits 0 and 9. -/
theorem witness_DigitTrialsFindTheDigit :
    (0 < (10 : Val).toNat ∧ (0 : Val).toNat ≤ (9 : Val).toNat ∧ (9 : Val).toNat - (0 : Val).toNat < 10 * (10 : Val).toNat) ∧
      0 < (10 : Val).toNat ∧ (0 : Val).toNat ≤ (99 : Val).toNat ∧
        (99 : Val).toNat - (0 : Val).toNat < 10 * (10 : Val).toNat := by decide +kernel

/-- LeadingZerosAndTopBit: a zero and a nonzero value, and a bit above the top one. -/
theorem witness_LeadingZerosAndTopBit : (0 : Val) = 0 ∧ (1 : Val) ≠ 0 ∧ msbVal 1 < 1 := by decide +kernel

/-- CounterWrapsAtItsWidth: the full counter at the default width, and the narrowest counter. -/
theorem witness_CounterWrapsAtItsWidth :
    (BitVec.allOnes 64).toNat < 2 ^ ({ } : Config).cntW.val ∧
      (0 : Word).toNat < 2 ^ ({ cntW := 0 } : Config).cntW.val := by decide +kernel

/-- DecodeEncodeRoundTrip: a command that ignores IMM. -/
theorem witness_DecodeEncodeRoundTrip :
    (∀ d v, Instr.add ≠ .ldi d v) ∧ (∀ n, Instr.add ≠ .bit n) ∧ ∀ n, Instr.add ≠ .pow2 n := by
  refine ⟨fun _ _ h => ?_, fun _ h => ?_, fun _ h => ?_⟩ <;> cases h

/-- DecodedWordsEncodeBack: each command that reads IMM. -/
theorem witness_DecodedWordsEncodeBack :
    decode 0x201 7 = .ok (.ldi .r 7) ∧ decode 0x32 7 = .ok (.bit 7) ∧ decode 0x33 7 = .ok (.pow2 7) := by decide

/-- FaultWritesOnlyStatus: a legal ST. -/
theorem witness_FaultWritesOnlyStatus : stLegal State.reset.st = true := by decide

/-- FaultsArePrecise, StatusCodeByCause: an issued word of each cause completes. -/
theorem witness_issue :
    (∃ t, issue 0x10 (preset 5 9) = .next t) ∧ (∃ t, issue 0x310 (preset 5 9) = .next t) ∧
      (∃ t, issue 0x13 (preset 5 0) = .next t) ∧ (∃ t, issue 0x31 (preset 0 0) = .next t) ∧
      (∃ t, issue 0x32 { preset 0 0 with cmdImm := 2047 } = .next t) ∧
      ∃ t, issue 0x33 { preset 0 0 with cmdImm := 2048 } = .next t := by
  refine ⟨?_, ?_, ?_, ?_, ?_, ?_⟩ <;> exact completes_next (by decide +kernel)

/-- IllegalWordFaults. -/
theorem witness_IllegalWordFaults : wellFormed 0x3 = false := by decide

/-- StickyStaysUntilReset: a step that is no reset, and one that is. -/
theorem witness_StickyStaysUntilReset :
    (stSticky (waiting { State.reset with st := 0x102 } [.write 0x65 0x0]).st = true ∧
      ∃ t, step (waiting { State.reset with st := 0x102 } [.write 0x65 0x0]) = .next t) ∧
      stSticky (waiting { State.reset with st := 0x102 } [.reset none]).st = true ∧
        ∃ t, step (waiting { State.reset with st := 0x102 } [.reset none]) = .next t :=
  ⟨⟨by decide +kernel, completes_next (by decide +kernel)⟩, by decide +kernel, completes_next (by decide +kernel)⟩

/-- CleanStickyMeansNoFault: one access that is no reset, run to its end with STICKY clear. -/
theorem witness_CleanStickyMeansNoFault :
    noResetPending (waiting State.reset [.write 0x65 0x0]) = true ∧
      stLegal (waiting State.reset [.write 0x65 0x0]).st = true ∧
      ∃ t, Host.Core.run Sys2Proof.core 1 (waiting State.reset [.write 0x65 0x0]) = .next t ∧ noFault t = true :=
  ⟨by decide, by decide, { State.reset with st := withCode 0 0 }, rfl, by decide⟩

/-- The statements of commands that read registers: both readable, in the default block and in a strict one. -/
theorem witness_readable :
    ((preset 5 9).readable .a = true ∧ (preset 5 9).readable .b = true ∧ (preset 5 9).readable .r = true) ∧
      (strictState (BitVec.allOnes 32) (BitVec.allOnes 32) (BitVec.allOnes 32)).readable .a = true ∧
        (strictState (BitVec.allOnes 32) (BitVec.allOnes 32) (BitVec.allOnes 32)).readable .b = true ∧
        (strictState (BitVec.allOnes 32) (BitVec.allOnes 32) (BitVec.allOnes 32)).readable .r = true := by
  decide +kernel

/-- DivWritesFloorQuotientOrFaults: a nonzero and a zero divisor, with A and B readable. -/
theorem witness_DivWritesFloorQuotientOrFaults :
    ((preset 42 6).readable .a = true ∧ (preset 42 6).readable .b = true ∧ (preset 42 6).b ≠ 0) ∧
      (preset 42 0).readable .a = true ∧ (preset 42 0).readable .b = true ∧ (preset 42 0).b = 0 := by
  decide +kernel

/-- MsbFindsTopBitOrFaults: a nonzero and a zero A. -/
theorem witness_MsbFindsTopBitOrFaults :
    ((preset 1 0).readable .a = true ∧ (preset 1 0).a ≠ 0) ∧ (preset 0 0).readable .a = true ∧ (preset 0 0).a = 0 := by
  decide +kernel

/-- BitTestsBitOrFaults, Pow2SetsOneBitOrFaults: the indices at both sides of the bound. -/
theorem witness_index :
    (preset 42 0).readable .a = true ∧ (2047 : Word).toNat < 2048 ∧ 2048 ≤ (2048 : Word).toNat := by decide +kernel

/-- LdiLoadsZeroExtendedImmediate, MovCopiesRegister: words of the two opcodes with a reserved selector or a nonzero
unused field. -/
theorem witness_reserved_selector :
    ((0x301 : Word).extractLsb' 0 8 = 1 ∧ (0x301 : Word).extractLsb' 8 2 = 3) ∧
      ((0x401 : Word).extractLsb' 0 8 = 1 ∧ (0x401 : Word).extractLsb' 10 2 ≠ 0) ∧
      ((0xB02 : Word).extractLsb' 0 8 = 2 ∧ (0xB02 : Word).extractLsb' 8 2 = 3) ∧
      (0xC02 : Word).extractLsb' 0 8 = 2 ∧ (0xC02 : Word).extractLsb' 10 2 = 3 := by decide

/-- The frames and WritersOfEachRegister: every command they name completes. -/
theorem witness_frames :
    (∃ t, exec (.ldi .a 7) (preset 5 9) = .next t) ∧ (∃ t, exec (.mov .b .a) (preset 5 9) = .next t) ∧
      (∃ t, exec .lt (preset 5 9) = .next t) ∧ (∃ t, exec .eq (preset 5 9) = .next t) ∧
      (∃ t, exec .add (preset 5 9) = .next t) ∧ (∃ t, exec .sub (preset 5 9) = .next t) ∧
      (∃ t, exec .mul (preset 5 9) = .next t) ∧ (∃ t, exec .div (preset 5 9) = .next t) ∧
      (∃ t, exec .lzc (preset 5 9) = .next t) ∧ (∃ t, exec .msb (preset 5 9) = .next t) ∧
      (∃ t, exec (.bit 2047) (preset 5 9) = .next t) ∧ (∃ t, exec (.pow2 2047) (preset 5 9) = .next t) ∧
      (∃ t, exec .print (preset 5 9) = .next t) ∧ (∃ t, exec .nop (preset 5 9) = .next t) ∧
      ∃ t, exec .rdcnt (preset 5 9) = .next t := by
  refine ⟨?_, ?_, ?_, ?_, ?_, ?_, ?_, ?_, ?_, ?_, ?_, ?_, ?_, ?_, ?_⟩ <;> exact completes_next (by decide +kernel)

/-- The frames' addresses: words that the named exceptions leave, at the edges of the map. -/
theorem witness_frame_addresses :
    (limbAt 0x5F ≠ some (.a, 0x1F) ∧ limbAt 0x1F = some (.a, 0x1F) ∧ limbAt 0x20 = some (.b, 0)) ∧
      limbAt 0x3F = some (.b, 0x1F) ∧ limbAt 0x40 = some (.r, 0) ∧ limbAt 0x60 = none := by decide

/-- The field `f` after the command differs from what it was. -/
def changes {α : Type} [DecidableEq α] (f : State → α) (i : Instr) (s : State) : Bool :=
  match nextField f (exec i s) with
  | some v => v != f s
  | none => false

/-- WritersOfEachRegister: each register changed by a command that its clause names. -/
theorem witness_WritersOfEachRegister :
    changes (·.a) (.ldi .a 7) (preset 5 9) = true ∧ changes (·.b) (.mov .b .a) (preset 5 9) = true ∧
      changes (·.r) .add (preset 5 9) = true ∧ changes (·.f) .lt (preset 5 9) = true ∧
      changes (·.n) .lzc (preset 5 9) = true ∧ changes (·.cnt) .add (preset 5 9) = true ∧
      changes (·.out) .print (preset 5 9) = true := by decide +kernel

/-- CounterAndOutputOnlyGrow, EveryCommandEnds, StepKeepsInvariant: a step that issues
ADD, from a state that meets the invariant. -/
theorem witness_step :
    (∃ t, step (waiting (preset 5 9) [.write 0x65 0x10]) = .next t) ∧
      (∀ during rest, (waiting (preset 5 9) [.write 0x65 0x10]).pending ≠ .reset during :: rest) ∧
      hostSafe (waiting (preset 5 9) [.write 0x65 0x10]) = true ∧
      (preset 5 9).cfg.strictUnwritten = false :=
  ⟨completes_next rfl, fun _ _ h => (by cases h), by decide +kernel, rfl⟩

/-- StepKeepsInvariant: a state with a written limb meets the invariant, and a step from it completes. -/
theorem witness_StepKeepsInvariant :
    inv (waiting { State.reset with a := 5, written := ⟨1, 0, 0⟩, st := 0x102, out := [0x39], cnt := 7 }
        [.write 0x65 0x30]) = true ∧
      ∃ t, step (waiting { State.reset with a := 5, written := ⟨1, 0, 0⟩, st := 0x102, out := [0x39], cnt := 7 }
        [.write 0x65 0x30]) = .next t :=
  ⟨by decide +kernel, completes_next rfl⟩

/-- AccessesTakeEffectInOrder: a run of two steps over two accesses. -/
theorem witness_AccessesTakeEffectInOrder :
    ∃ t, Host.Core.run Sys2Proof.core 2 (waiting State.reset [.write 0x64 1, .read 0x64]) = .next t :=
  ⟨{ State.reset with cmdImm := 1, returned := [1] }, rfl⟩

/-- AccessesTakeEffectInOrder: a write and a read of the same word, at the edges of its clause. -/
theorem witness_write_then_read :
    ∀ addr ∈ [0, 0x1F, 0x20, 0x3F, 0x40, 0x5F, 0x64],
      (waiting (preset 5 9) [.write addr 7, .read addr]).onBus addr = true ∧ (addr < 0x60 ∨ addr = 0x64) := by
  decide +kernel

/-- AccessesTakeEffectInOrder: ADD, then a read of R's lowest limb, in a block that is not strict. -/
theorem witness_command_then_read :
    (∃ u, step (waiting (preset 5 9) [.write 0x65 0x10, .read 0x40]) = .next u ∧
        ∀ x k, limbAt 0x40 = some (x, k) → u.limbReadable x k = true) ∧
      (waiting (preset 5 9) [.write 0x65 0x10, .read 0x40]).onBus 0x40 = true :=
  ⟨⟨_, rfl, fun _ _ _ => rfl⟩, by decide +kernel⟩

/-- IgnoredImmediateDoesNotMatter: ADD, whatever the latch holds. -/
theorem witness_IgnoredImmediateDoesNotMatter :
    decode 0x10 (preset 5 9).cmdImm = .ok .add ∧
      ((∀ d v, Instr.add ≠ .ldi d v) ∧ (∀ n, Instr.add ≠ .bit n) ∧ ∀ n, Instr.add ≠ .pow2 n) ∧
      ∃ t, issue 0x10 (preset 5 9) = .next t :=
  ⟨by decide, witness_DecodeEncodeRoundTrip, completes_next rfl⟩

/-- StepRunsDecodedCommand, PlacedCommandRunsNext: a command word at CMD_CTRL, one that is no command, and a table
word. -/
theorem witness_StepRunsDecodedCommand :
    (waiting (preset 5 9) [.write 0x65 0x10]).pending = [.write 0x65 0x10] ∧
      (waiting (preset 5 9) [.write 0x65 0x10]).onBus 0x65 = true ∧
      decode 0x10 (preset 5 9).cmdImm = .ok .add ∧ wellFormed 0x310 = false ∧
      decodeTableWord 96 0x10 = some .add := by decide +kernel

/-- HostReadDeliversTheWord: readable words at the edges of every clause. -/
theorem witness_HostReadDeliversTheWord :
    ∀ addr ∈ [0, 0x1F, 0x20, 0x3F, 0x40, 0x5F, 0x60, 0x61, 0x62, 0x63, 0x64, 0x65, 0xFF],
      (waiting (preset 5 9) [.read addr]).onBus addr = true ∧
        ∀ x k, limbAt addr = some (x, k) → (waiting (preset 5 9) [.read addr]).limbReadable x k = true :=
  fun addr h => ⟨by revert addr; decide +kernel, fun _ _ _ => rfl⟩

/-- HostWriteStoresOneWord, ReadOnlyAndReservedWritesAreIgnored: the addresses of each clause at its edges. -/
theorem witness_host_writes :
    (∀ addr ∈ [0, 0x1F, 0x20, 0x5F, 0x64], (waiting State.reset [.write addr 7]).onBus addr = true ∧
        (addr < 0x60 ∨ addr = 0x64)) ∧
      ∀ addr ∈ [0x60, 0x63, 0x66, 0xFF], (waiting State.reset [.write addr 7]).onBus addr = true ∧
        ((0x60 ≤ addr ∧ addr ≤ 0x63) ∨ 0x66 ≤ addr) := by decide +kernel

/-- ResetClearsEveryElement: a reset while idle, and one during a command. -/
theorem witness_ResetClearsEveryElement :
    (waiting (preset 5 9) [.reset none]).pending = [.reset none] ∧
      (waiting (preset 5 9) [.reset (some 0x12)]).pending = [.reset (some 0x12)] := ⟨rfl, rfl⟩

/-- StrictUnwrittenReadsStop: A unwritten; A written and B not; B or R unwritten, for MOV; and a limb not written,
read over the bus. -/
theorem witness_StrictUnwrittenReadsStop :
    (strictState 0 0 0).readable .a = false ∧
      ((strictState (BitVec.allOnes 32) 1 0).readable .a = true ∧
        (strictState (BitVec.allOnes 32) 1 0).readable .b = false ∧
        (strictState (BitVec.allOnes 32) 1 0).readable .r = false) ∧
      (waiting (strictState 1 0 0) [.read 1]).onBus 1 = true ∧ limbAt 1 = some (.a, 1) ∧
        (waiting (strictState 1 0 0) [.read 1]).limbReadable .a 1 = false := by decide +kernel

end Sys2Proof.Tests
end

section
/-! PROOFS. 00_scope.md R8: a value and its limbs, a limb and its bytes, as numbers and bit by bit. -/

namespace Sys2Proof.Proofs

open Sys2Proof Sys2Proof.Machine Sys2Proof.Laws

/-- The low `m` pieces of `d` bits each, summed at their weights, are the low `d * m` bits: limbs of a value and bytes
of a limb alike. -/
theorem toNat_mod_eq_sum_pieces {n : Nat} (w : BitVec n) (d m : Nat) :
    w.toNat % 2 ^ (d * m) = ∑ k ∈ Finset.range m, (w.extractLsb' (d * k) d).toNat * 2 ^ (d * k) := by
  induction m with
  | zero => simp [Nat.mod_one]
  | succ m ih =>
    rw [Finset.sum_range_succ, ← ih, Nat.mul_succ, Nat.pow_add, Nat.mod_mul, BitVec.extractLsb'_toNat,
      Nat.shiftRight_eq_div_pow, Nat.mul_comm (2 ^ (d * m))]

/-- A vector of `m` pieces of `d` bits each is their sum at their weights. -/
theorem toNat_eq_sum_pieces {n : Nat} (w : BitVec n) {d m : Nat} (h : n = d * m) :
    w.toNat = ∑ k ∈ Finset.range m, (w.extractLsb' (d * k) d).toNat * 2 ^ (d * k) := by
  rw [← toNat_mod_eq_sum_pieces, ← h, Nat.mod_eq_of_lt w.isLt]

/-- The bits of a byte of a value (20_memory.md R58). -/
theorem limbByte_getLsbD (x : Val) (k j i : Nat) :
    (limbByte x k j).getLsbD i = (decide (i < 8) && x.getLsbD (64 * k + 8 * j + i)) := by
  simp [limbByte, BitVec.getLsbD_extractLsb']

/-- Byte `j` of limb `k` of a value is the limb's own byte `j` (20_memory.md R58). -/
theorem limbByte_eq_extractLsb'_limb (x : Val) (k : Nat) {j : Nat} (hj : j < 8) :
    limbByte x k j = (limb x k).extractLsb' (8 * j) 8 := by
  apply BitVec.eq_of_getLsbD_eq
  intro i hi
  have hbit : 8 * j + i < 64 := by omega
  rw [limbByte_getLsbD, BitVec.getLsbD_extractLsb', limb_getLsbD, decide_eq_true hbit, Bool.true_and, Nat.add_assoc]

/-- A value is the sum of its 32 limbs at their weights (00_scope.md R8). -/
theorem toNat_eq_sum_limbs (x : Val) :
    x.toNat = ∑ k ∈ Finset.range 32, (limb x k).toNat * 2 ^ (64 * k) :=
  toNat_eq_sum_pieces x rfl

/-- A limb is the sum of its eight bytes, least significant first (20_memory.md R58). -/
theorem limb_toNat_eq_sum_limbBytes (x : Val) (k : Nat) :
    (limb x k).toNat = ∑ j ∈ Finset.range 8, (limbByte x k j).toNat * 2 ^ (8 * j) := by
  rw [toNat_eq_sum_pieces (limb x k) (d := 8) (m := 8) rfl]
  refine Finset.sum_congr rfl fun j hj => ?_
  rw [limbByte_eq_extractLsb'_limb x k (Finset.mem_range.mp hj)]

/-- Settles O1: a vector is the sum of its equal pieces, taken once with limbs of a value and once with bytes of a
limb. -/
theorem valueIsSumOfLimbs : Obligations.ValueIsSumOfLimbs := by
  intro x
  refine ⟨toNat_eq_sum_limbs x, fun k _ => ⟨fun i hi => ?_, limb_toNat_eq_sum_limbBytes x k, fun j _ i hi => ?_⟩⟩
  · rw [limb_getLsbD, decide_eq_true hi, Bool.true_and]
  · rw [limbByte_getLsbD, decide_eq_true hi, Bool.true_and]

end Sys2Proof.Proofs
end

section
/-! PROOFS. 10_state.md R26, R29: counting, how many additions a command can count, how many digits it can emit, and
so what a step can do to CNT and OUT. -/

namespace Sys2Proof.Proofs

open Sys2Proof Sys2Proof.Machine Sys2Proof.Reference Sys2Proof.Safety Sys2Proof.Laws

/-! ### Counting -/

/-- `k` single counts are one count of `k` (10_state.md R26). -/
theorem tick_iterate (c : Config) (k : Nat) (cnt : Word) : (tick c)^[k] cnt = ticks c k cnt := by
  induction k with
  | zero => rfl
  | succ k ih => rw [Function.iterate_succ_apply', ih, tick_eq, ticks_ticks]

/-- `ticks_toNat` with no count as well, for a CNT that fits its width. -/
theorem ticks_toNat_of_lt {c : Config} (k : Nat) {cnt : Word} (h : cnt.toNat < 2 ^ c.cntW.val) :
    (ticks c k cnt).toNat = (cnt.toNat + k) % 2 ^ c.cntW.val := by
  cases k with
  | zero => exact (Nat.mod_eq_of_lt h).symm
  | succ k => exact ticks_toNat c _ cnt k.succ_ne_zero

/-- Settles O12: counting composes, and the composed count is modular. -/
theorem counterWrapsAtItsWidth : Obligations.CounterWrapsAtItsWidth :=
  fun cfg k cnt h => ⟨ticks_toNat_of_lt k h, tick_iterate cfg k cnt⟩

/-! ### Digits of a rendering -/

theorem decimalDigits_le_nine (n : Nat) : ∀ d ∈ decimalDigits n, d ≤ 9 := by
  intro d hd
  unfold decimalDigits at hd
  split at hd
  · rw [List.mem_singleton.mp hd]
    exact Nat.zero_le 9
  · exact Nat.le_of_lt_succ (Nat.digits_lt_base (by decide) (List.mem_reverse.mp hd))

theorem decimalDigits_length_le (v : Val) : (decimalDigits v.toNat).length ≤ 617 := by
  rw [decimalDigits_length]
  exact max_le (numDigits_le v) (by decide)

theorem isDigitByte_digitByte {d : Nat} (h : d ≤ 9) : isDigitByte (digitByte d) = true := by
  interval_cases d <;> rfl

/-- PRINT emits ASCII digits alone (45_decimal.md R214). -/
theorem digitBytes_all (n : Nat) : ((decimalDigits n).map digitByte).all isDigitByte = true := by
  rw [List.all_map, List.all_eq_true]
  exact fun d hd => isDigitByte_digitByte (decimalDigits_le_nine n d hd)

/-! ### How many additions a command counts -/

/-- Bits known to be zero are not counted. -/
theorem popcountBelow_le_of_low_zero {y : Val} {i : Nat} (h : ∀ j < i, y.getLsbD j = false) (k : Nat) :
    popcountBelow y k ≤ k - i := by
  induction k with
  | zero => exact Nat.zero_le _
  | succ k ih =>
    rw [popcountBelow]
    by_cases hk : k < i
    · rw [h k hk, Bool.toNat_false]
      omega
    · have := Bool.toNat_le (y.getLsbD k)
      omega

theorem popcount_le (y : Val) : popcount y ≤ 2048 :=
  popcountBelow_le_of_low_zero (i := 0) (fun _ hj => absurd hj (Nat.not_lt_zero _)) Config.width

/-- The candidate of iteration `i` has no bit below `i` (44_div.md R192). -/
theorem popcount_divCandidate_le (q i : Nat) : popcount (BitVec.ofNat 2048 (divCandidate q i)) ≤ 2048 - i := by
  refine popcountBelow_le_of_low_zero (fun j hj => ?_) Config.width
  have hfactor : divCandidate q i = 2 ^ i * (2 * (q / 2 ^ (i + 1)) + 1) := by
    rw [divCandidate, Nat.pow_succ]
    ring
  rw [BitVec.getLsbD_ofNat, hfactor, Nat.testBit_two_pow_mul, decide_eq_false (Nat.not_le.mpr hj), Bool.false_and,
    Bool.and_false]

theorem divFirst_lt (a : Val) (b : Nat) : divFirst a.toNat b < 2048 := by
  have hlog : Nat.log2 a.toNat < 2048 := by
    by_cases ha : a.toNat = 0
    · rw [ha, Nat.log2_zero]
      decide
    · exact (Nat.log2_lt ha).mpr a.isLt
  exact lt_of_le_of_lt (Nat.sub_le _ _) hlog

/-- The largest counts of the iterations below `n`, summed (44_div.md R192). -/
theorem sum_iterationCounts {n : Nat} (h : n ≤ 2048) :
    2 * ∑ i ∈ Finset.range n, (1 + 2048 + (2048 - i)) = n * (8195 - n) := by
  induction n with
  | zero => rfl
  | succ n ih =>
    obtain ⟨m, hm⟩ : ∃ m, m + n = 2047 := ⟨2047 - n, by omega⟩
    rw [Finset.sum_range_succ, Nat.mul_add, ih (by omega), show 8195 - n = m + 6148 by omega,
      show 8195 - (n + 1) = m + 6147 by omega, show 1 + 2048 + (2048 - n) = m + 2050 by omega]
    nlinarith

/-- A division counts at most 6294528 additions (44_div.md R192). -/
theorem divAdditions_le (a : Val) (b : Nat) : divAdditions a.toNat b ≤ 6294528 := by
  unfold divAdditions
  split
  · exact Nat.zero_le _
  · have hsub : Finset.Icc (divLast a.toNat b) (divFirst a.toNat b) ⊆ Finset.range 2048 := fun i hi =>
      Finset.mem_range.mpr (lt_of_le_of_lt (Finset.mem_Icc.mp hi).2 (divFirst_lt a b))
    calc _ ≤ ∑ i ∈ Finset.Icc (divLast a.toNat b) (divFirst a.toNat b), (1 + 2048 + (2048 - i)) :=
          Finset.sum_le_sum fun i _ => Nat.add_le_add_left (popcount_divCandidate_le _ i) _
      _ ≤ ∑ i ∈ Finset.range 2048, (1 + 2048 + (2048 - i)) := Finset.sum_le_sum_of_subset hsub
      _ ≤ 6294528 := by
          have := sum_iterationCounts (le_refl 2048)
          omega

/-- A rendering counts at most `5 * 616 + 617 + 9 * 617` additions (45_decimal.md R215, R218). -/
theorem printAdditions_le (v : Val) : printAdditions v.toNat ≤ 9250 := by
  have hlen := decimalDigits_length_le v
  have hsum := List.sum_le_card_nsmul _ 9 (decimalDigits_le_nine v.toNat)
  rw [smul_eq_mul] at hsum
  unfold printAdditions
  omega

/-- The additions that a command's own effect counts. -/
def additions (s : State) : Instr → Nat
  | .add => 1
  | .mul => 2048 + popcount s.b
  | .div => divAdditions s.a.toNat s.b.toNat
  | .print => printAdditions s.a.toNat
  | .nop | .ldi _ _ | .mov _ _ | .sub | .lt | .eq | .lzc | .msb | .bit _ | .pow2 _ | .rdcnt => 0

/-- The bytes that a command's own effect emits. -/
def emitted (s : State) : Instr → List Byte
  | .print => (decimalDigits s.a.toNat).map digitByte
  | .add | .mul | .div | .nop | .ldi _ _ | .mov _ _ | .sub | .lt | .eq | .lzc | .msb | .bit _ | .pow2 _ | .rdcnt => []

theorem ownEffect_cnt (i : Instr) (s : State) : (ownEffect i s).cnt = ticks s.cfg (additions s i) s.cnt := by
  cases i <;> simp [ownEffect, additions]

theorem ownEffect_out (i : Instr) (s : State) : (ownEffect i s).out = s.out ++ emitted s i := by
  cases i <;> simp [ownEffect, emitted]

/-- DIV counts most (44_div.md R192; 70_reset_and_hazards.md R308). -/
theorem additions_le (s : State) (i : Instr) : additions s i ≤ 6294528 := by
  cases i with
  | mul => exact le_trans (Nat.add_le_add_left (popcount_le s.b) 2048) (by decide)
  | div => exact divAdditions_le s.a s.b.toNat
  | print => exact le_trans (printAdditions_le s.a) (by decide)
  | _ => simp [additions]

theorem emitted_all (s : State) (i : Instr) : (emitted s i).all isDigitByte = true := by
  cases i with
  | print => exact digitBytes_all s.a.toNat
  | _ => rfl

theorem emitted_length_le (s : State) (i : Instr) : (emitted s i).length ≤ 617 := by
  cases i with
  | print => rw [emitted, List.length_map]; exact decimalDigits_length_le s.a
  | _ => exact Nat.zero_le 617

/-! ### CNT and OUT in one step -/

/-- From `s` to `t`, CNT takes counted additions, as many as a command can count, and OUT gains digit bytes, as many as
a rendering can have. -/
def Grows (s t : State) : Prop :=
  (∃ k ≤ 6294528, t.cnt = ticks s.cfg k s.cnt) ∧
    ∃ bytes : List Byte, t.out = s.out ++ bytes ∧ bytes.all isDigitByte = true ∧ bytes.length ≤ 617

/-- What leaves CNT and OUT alone grows them by nothing. -/
theorem Grows.of_unchanged {s t : State} (hcnt : t.cnt = s.cnt) (hout : t.out = s.out) : Grows s t :=
  ⟨⟨0, Nat.zero_le _, hcnt⟩, [], by rw [hout, List.append_nil], rfl, Nat.zero_le _⟩

/-- An issued word that completes has faulted, or counted and emitted what its command does. -/
theorem issue_grows {v : Word} {s t : State} (h : issue v s = .next t) : Grows s t := by
  rcases issue_cases h with ⟨k, rfl⟩ | ⟨i, -, -, rfl⟩
  · exact Grows.of_unchanged rfl rfl
  · exact ⟨⟨_, additions_le s i, ownEffect_cnt i s⟩, _, ownEffect_out i s, emitted_all s i, emitted_length_le s i⟩

/-- Settles O41: among the accesses that are no reset, an issued command alone touches CNT and OUT. -/
theorem counterAndOutputOnlyGrow : Obligations.CounterAndOutputOnlyGrow := by
  intro s t h hreset
  change Grows s t
  rcases step_cases h with ⟨-, rfl⟩ | ⟨_, _, -, rfl⟩ | ⟨during, rest, hp, -⟩ |
    ⟨_, v, rest, -, ⟨x, k, -, -, rfl⟩ | ⟨-, rfl⟩ | ⟨-, -, -, rfl⟩ | ⟨-, hissue⟩⟩
  · exact Grows.of_unchanged rfl rfl
  · exact Grows.of_unchanged rfl rfl
  · exact absurd hp (hreset during rest)
  · exact Grows.of_unchanged (writeLimb_cnt _ x k v) (writeLimb_out _ x k v)
  · exact Grows.of_unchanged rfl rfl
  · exact Grows.of_unchanged rfl rfl
  · exact issue_grows (s := { s with pending := rest }) hissue

end Sys2Proof.Proofs
end

section
/-! PROOFS. 10_state.md R24, R26, R27: every operation, and so every step, keeps the invariant, and reset meets it. -/

namespace Sys2Proof.Proofs

open Sys2Proof Sys2Proof.Machine Sys2Proof.Safety Sys2Proof.Laws

/-! ### Limbs never written -/

theorem limbsClean_iff {mask : BitVec 32} {x : Val} :
    limbsClean mask x = true ↔ ∀ k < 32, mask.getLsbD k = false → limb x k = 0 := by
  simp only [limbsClean, List.all_eq_true, List.mem_range, Bool.or_eq_true, beq_iff_eq, ← Bool.not_eq_true,
    or_iff_not_imp_left]

/-- A value of which every limb is written has no limb to check. -/
theorem limbsClean_allOnes (x : Val) : limbsClean (BitVec.allOnes 32) x = true :=
  limbsClean_iff.mpr fun k hk h => by
    rw [BitVec.getLsbD_allOnes, decide_eq_true hk] at h
    cases h

theorem limbsClean_zero (mask : BitVec 32) : limbsClean mask 0 = true :=
  limbsClean_iff.mpr fun k _ _ => by simp [limb]

/-- Writing a limb and marking it leaves the unmarked limbs zero. -/
theorem limbsClean_setLimb {mask : BitVec 32} {x : Val} {k : Nat} (v : Word) (hk : k < 32)
    (h : limbsClean mask x = true) : limbsClean (mask ||| BitVec.twoPow 32 k) (setLimb x k v) = true := by
  rw [limbsClean_iff] at h ⊢
  intro j hj hmark
  rw [BitVec.getLsbD_or, Bool.or_eq_false_iff] at hmark
  have hne : j ≠ k := by
    rintro rfl
    simp [hk] at hmark
  rw [limb_setLimb_other _ _ _ _ hk hne]
  exact h j hj hmark.1

/-! ### The invariant, operation by operation -/

/-- The invariant's four parts, the limbs by register. -/
theorem inv_iff {s : State} :
    inv s = true ↔
      stLegal s.st = true ∧ s.cnt.toNat < 2 ^ s.cfg.cntW.val ∧ (∀ x, limbsClean (s.marks x) (s.val x) = true) ∧
        s.out.all isDigitByte = true := by
  have hregs : (∀ x, limbsClean (s.marks x) (s.val x) = true) ↔
      limbsClean s.written.a s.a = true ∧ limbsClean s.written.b s.b = true ∧ limbsClean s.written.r s.r = true :=
    ⟨fun h => ⟨h .a, h .b, h .r⟩, fun ⟨ha, hb, hr⟩ x => by cases x <;> assumption⟩
  simp only [inv, cntFits, Bool.and_eq_true, decide_eq_true_eq, hregs, and_assoc]

theorem stLegal_zero : stLegal 0 = true := by decide

theorem inv_applyReset (s : State) : inv s.applyReset = true :=
  inv_iff.mpr ⟨stLegal_zero, Nat.two_pow_pos _, fun x => by cases x <;> exact limbsClean_zero _, rfl⟩

/-- A register written by a command has all its limbs marked (10_state.md R24; log entry 6). -/
theorem inv_setVal {s : State} (x : Reg) (v : Val) (h : inv s = true) : inv (s.setVal x v) = true := by
  obtain ⟨hst, hcnt, hregs, hout⟩ := inv_iff.mp h
  refine inv_iff.mpr ⟨by simpa using hst, by simpa using hcnt, fun y => ?_, by simpa using hout⟩
  by_cases hy : y = x
  · rw [hy, setVal_marks_same]
    exact limbsClean_allOnes _
  · rw [setVal_marks_other s v hy, setVal_val_other s v hy]
    exact hregs y

theorem inv_writeLimb {s : State} (x : Reg) {k : Nat} (v : Word) (hk : k < 32) (h : inv s = true) :
    inv (s.writeLimb x k v) = true := by
  obtain ⟨hst, hcnt, hregs, hout⟩ := inv_iff.mp h
  refine inv_iff.mpr ⟨by simpa using hst, by simpa using hcnt, fun y => ?_, by simpa using hout⟩
  by_cases hy : y = x
  · rw [hy, writeLimb_marks_same, writeLimb_val_same]
    exact limbsClean_setLimb v hk (hregs x)
  · rw [writeLimb_marks_other s k v hy, writeLimb_val_other s k v hy]
    exact hregs y

theorem inv_setSt {s : State} {st : Word} (hst : stLegal st = true) (h : inv s = true) :
    inv { s with st := st } = true := by
  obtain ⟨-, hcnt, hregs, hout⟩ := inv_iff.mp h
  exact inv_iff.mpr ⟨hst, hcnt, hregs, hout⟩

theorem inv_ticks {s : State} (k : Nat) (h : inv s = true) :
    inv { s with cnt := ticks s.cfg k s.cnt } = true := by
  obtain ⟨hst, hcnt, hregs, hout⟩ := inv_iff.mp h
  exact inv_iff.mpr ⟨hst, ticks_lt s.cfg k s.cnt hcnt, hregs, hout⟩

theorem inv_emit {s : State} {bytes : List Byte} (hbytes : bytes.all isDigitByte = true) (h : inv s = true) :
    inv (s.emit bytes) = true := by
  obtain ⟨hst, hcnt, hregs, hout⟩ := inv_iff.mp h
  exact inv_iff.mpr ⟨hst, hcnt, hregs, by rw [emit_out, List.all_append, hout, hbytes]; rfl⟩

/-- F and N stand outside the invariant; the other commands write a register, CNT or OUT. -/
theorem inv_ownEffect {s : State} (i : Instr) (h : inv s = true) : inv (ownEffect i s) = true := by
  cases i with
  | nop | lt | eq | lzc | msb | bit _ | rdcnt => exact h
  | ldi d _ | mov d _ => exact inv_setVal d _ h
  | sub | pow2 _ => exact inv_setVal .r _ h
  | add | mul | div => exact inv_ticks _ (inv_setVal .r _ h)
  | print => exact inv_ticks _ (inv_emit (digitBytes_all s.a.toNat) h)

theorem inv_issue {v : Word} {s t : State} (h : inv s = true) (hissue : issue v s = .next t) : inv t = true := by
  have hst : stLegal s.st = true := (inv_iff.mp h).1
  rcases issue_cases hissue with ⟨k, rfl⟩ | ⟨i, -, -, rfl⟩
  · exact inv_setSt (stLegal_raise k hst) h
  · exact inv_setSt (stLegal_withCode_zero hst) (inv_ownEffect i h)

/-- Settles O57: reset establishes the invariant, and every other access keeps it. -/
theorem stepKeepsInvariant : Obligations.StepKeepsInvariant := by
  intro s t h hstep
  rcases step_cases hstep with ⟨-, rfl⟩ | ⟨_, _, -, rfl⟩ | ⟨_, rest, -, rfl⟩ |
    ⟨_, v, rest, -, ⟨x, k, hk, -, rfl⟩ | ⟨-, rfl⟩ | ⟨-, -, -, rfl⟩ | ⟨-, hissue⟩⟩
  · exact h
  · exact h
  · exact inv_applyReset _
  · exact inv_writeLimb x v hk h
  · exact h
  · exact h
  · exact inv_issue (s := { s with pending := rest }) h hissue

/-- Settles O58: the reset state, its waiting accesses kept, is what a reset makes of itself. -/
theorem invariantHoldsAtReset : Obligations.InvariantHoldsAtReset :=
  fun accs => inv_applyReset { State.reset with pending := accs }

/-- Settles O53: each element of 10_state.md R20 is a field of the reset state. -/
theorem resetStateValues : Obligations.ResetStateValues :=
  ⟨rfl, rfl, rfl, rfl, rfl, rfl, rfl, rfl, rfl, rfl, rfl, rfl, rfl⟩

end Sys2Proof.Proofs
end

section
/-! PROOFS. 10_state.md R20, R24: which command writes which element of the state, and what reading a register never
written stops. -/

namespace Sys2Proof.Proofs

open Sys2Proof Sys2Proof.Machine Sys2Proof.Laws

/-- The value register that a command's own effect writes. -/
def destOf : Instr → Option Reg
  | .ldi d _ | .mov d _ => some d
  | .add | .sub | .mul | .div | .pow2 _ => some .r
  | .nop | .lt | .eq | .lzc | .msb | .bit _ | .print | .rdcnt => none

theorem ownEffect_val_other {i : Instr} {x : Reg} (s : State) (h : destOf i ≠ some x) :
    (ownEffect i s).val x = s.val x := by
  have hother : ∀ {d : Reg} (v : Val), destOf i = some d → (s.setVal d v).val x = s.val x := fun v hd =>
    setVal_val_other s v fun hx => h (hx ▸ hd)
  cases i with
  | nop | lt | eq | lzc | msb | bit _ | print | rdcnt => rfl
  | ldi _ _ | mov _ _ | add | sub | mul | div | pow2 _ => exact hother _ rfl

/-- A field other than ST that a completed command changed is one its own effect changes: a fault writes ST alone
(60_exceptions.md R273). -/
theorem ownEffect_changes {i : Instr} {s t : State} {α : Type} (field : State → α)
    (hst : ∀ u st, field { u with st := st } = field u) (h : exec i s = .next t) (hne : field t ≠ field s) :
    field (ownEffect i s) ≠ field s := by
  rcases exec_cases h with ⟨k, -, rfl⟩ | ⟨-, rfl⟩
  · exact absurd (hst s _) hne
  · rwa [hst] at hne

theorem destOf_of_val_changed {i : Instr} {s t : State} (x : Reg) (h : exec i s = .next t) (hne : t.val x ≠ s.val x) :
    destOf i = some x :=
  not_not.mp fun hd =>
    ownEffect_changes (State.val · x) (fun _ _ => by cases x <;> rfl) h hne (ownEffect_val_other s hd)

/-- LDI and MOV write the register they name; every other writer of a value register writes R (10_state.md R21). -/
theorem eq_of_destOf_eq_some {i : Instr} {x : Reg} (h : destOf i = some x) :
    (∃ imm, i = .ldi x imm) ∨ (∃ src, i = .mov x src) ∨
      x = .r ∧ (i = .add ∨ i = .sub ∨ i = .mul ∨ i = .div ∨ ∃ n, i = .pow2 n) := by
  cases i with
  | ldi d imm => cases h; exact .inl ⟨imm, rfl⟩
  | mov d src => cases h; exact .inr (.inl ⟨src, rfl⟩)
  | add | sub | mul | div | pow2 _ => cases h; simp
  | nop | lt | eq | lzc | msb | bit _ | print | rdcnt => cases h

/-- A or B changes by LDI or MOV alone (10_state.md R22). -/
theorem ldi_or_mov_of_val_changed {i : Instr} {s t : State} {x : Reg} (hx : x ≠ .r) (h : exec i s = .next t)
    (hne : t.val x ≠ s.val x) : (∃ imm, i = .ldi x imm) ∨ ∃ src, i = .mov x src := by
  rcases eq_of_destOf_eq_some (destOf_of_val_changed x h hne) with hldi | hmov | ⟨hr, -⟩
  · exact .inl hldi
  · exact .inr hmov
  · exact absurd hr hx

/-- Settles O40: a changed field is one that the command's own effect changes, and for each field the commands whose
effect leaves it are ruled out. -/
theorem writersOfEachRegister : Obligations.WritersOfEachRegister := by
  intro i s t h
  refine ⟨ldi_or_mov_of_val_changed (x := .a) (by decide) h, ldi_or_mov_of_val_changed (x := .b) (by decide) h,
    fun hne => ?_, fun hne => ?_, fun hne => ?_, fun hne => ?_, fun hne => ?_, exec_keeps h⟩
  · rcases eq_of_destOf_eq_some (destOf_of_val_changed .r h hne) with hldi | hmov | ⟨-, hi⟩
    · simp only [hldi, true_or, or_true]
    · simp only [hmov, or_true]
    · tauto
  · have hown := ownEffect_changes State.f (fun _ _ => rfl) h hne
    cases i with
    | lt | eq | bit _ => simp
    | _ => simp [ownEffect] at hown
  · have hown := ownEffect_changes State.n (fun _ _ => rfl) h hne
    cases i with
    | lzc | msb | rdcnt => simp
    | _ => simp [ownEffect] at hown
  · have hown := ownEffect_changes State.cnt (fun _ _ => rfl) h hne
    rw [ownEffect_cnt] at hown
    cases i with
    | add | mul | div | print => simp
    | _ => exact absurd rfl hown
  · have hown := ownEffect_changes State.out (fun _ _ => rfl) h hne
    rw [ownEffect_out] at hown
    cases i with
    | print => rfl
    | _ => exact absurd (List.append_nil s.out) hown

/-! ### Reading what was never written -/

theorem withVal_of_unreadable {x : Reg} {s : State} (k : Val → Answer) (h : s.readable x = false) :
    withVal x s k = .fault (.unwrittenRegister x) :=
  if_neg (Bool.eq_false_iff.mp h)

theorem withAB_of_a_unreadable {s : State} (k : Val → Val → Answer) (ha : s.readable .a = false) :
    withAB s k = .fault (.unwrittenRegister .a) :=
  withVal_of_unreadable _ ha

/-- A command that reads A and B reads A first (log entry 7). -/
theorem withAB_of_b_unreadable {s : State} (k : Val → Val → Answer) (ha : s.readable .a = true)
    (hb : s.readable .b = false) : withAB s k = .fault (.unwrittenRegister .b) := by
  rw [withAB, withVal_of_readable _ ha, withVal_of_unreadable _ hb]

theorem hostRead_of_unreadable {addr k : Nat} {x : Reg} {s : State} (hbus : s.onBus addr = true)
    (hlimb : limbAt addr = some (x, k)) (h : s.limbReadable x k = false) :
    hostRead addr s = .fault (.unwrittenRegister x) := by
  simp [hostRead, hbus, hlimb, h]

/-- Settles O54: a command that reads A, or A and B, opens with that read, and a host read checks its limb. -/
theorem strictUnwrittenReadsStop : Obligations.StrictUnwrittenReadsStop := by
  intro s
  refine ⟨fun ha i hi => ?_, fun ha hb i hi => ?_, fun d x hx => ?_,
    fun addr rest x k hp hbus hlimb hr => ?_⟩
  · rcases hi with rfl | rfl | rfl | rfl | rfl | rfl | rfl | rfl | rfl | ⟨n, rfl⟩ <;> rw [exec]
    iterate 6 exact withAB_of_a_unreadable _ ha
    all_goals exact withVal_of_unreadable _ ha
  · rcases hi with rfl | rfl | rfl | rfl | rfl | rfl <;> rw [exec] <;> exact withAB_of_b_unreadable _ ha hb
  · rw [exec]
    exact withVal_of_unreadable _ hx
  · rw [step_access hp]
    exact hostRead_of_unreadable hbus hlimb hr

end Sys2Proof.Proofs
end

section
/-! PROOFS. 20_memory.md R52 to R57, R62, R63: what a host read gives, what a host write stores, and that accesses take
effect one after another. -/

namespace Sys2Proof.Proofs

open Sys2Proof Sys2Proof.Machine Sys2Proof.Laws

/-! ### The words of the bus -/

theorem memRead_a {addr : Nat} (s : State) (h : addr < 0x20) : memRead s addr = limb s.a addr :=
  if_pos h

theorem memRead_b {addr : Nat} (s : State) (hlo : 0x20 ≤ addr) (hhi : addr < 0x40) :
    memRead s addr = limb s.b (addr - 0x20) := by
  rw [memRead, if_neg (by omega), if_pos hhi]

theorem memRead_r {addr : Nat} (s : State) (hlo : 0x40 ≤ addr) (hhi : addr < 0x60) :
    memRead s addr = limb s.r (addr - 0x40) := by
  rw [memRead, if_neg (by omega), if_neg (by omega), if_pos hhi]

@[simp] theorem memRead_f (s : State) : memRead s 0x60 = s.f.setWidth 64 := rfl
@[simp] theorem memRead_n (s : State) : memRead s 0x61 = s.n := rfl
@[simp] theorem memRead_st (s : State) : memRead s 0x62 = s.st := rfl
@[simp] theorem memRead_cnt (s : State) : memRead s 0x63 = s.cnt := rfl
@[simp] theorem memRead_cmdImm (s : State) : memRead s 0x64 = s.cmdImm := rfl

/-- CMD_CTRL and the reserved words read as zero (20_memory.md R53, R55). -/
theorem memRead_of_ge {addr : Nat} (s : State) (h : 0x65 ≤ addr) : memRead s addr = 0 := by
  unfold memRead
  iterate 8 rw [if_neg (by omega)]

/-- Of the bus words, CMD_IMM's alone depends on CMD_IMM. -/
theorem memRead_setCmdImm_other {other : Nat} (s : State) (v : Word) (h : other ≠ 0x64) :
    memRead { s with cmdImm := v } other = memRead s other := by
  simp only [memRead, if_neg h]

/-- The limbs' addresses end below 0x60 (20_memory.md R52). -/
theorem addr_lt_of_limbAt {addr k : Nat} {x : Reg} (h : limbAt addr = some (x, k)) : addr < 0x60 := by
  have hk := limbAt_lt h
  rw [limbAt_addr h]
  cases x <;> simp only [limbBase] <;> omega

/-! ### Reading -/

theorem hostRead_of_readable {addr : Nat} {s : State} (hbus : s.onBus addr = true)
    (hread : ∀ x k, limbAt addr = some (x, k) → s.limbReadable x k = true) : hostRead addr s = deliver addr s := by
  rw [hostRead, if_pos hbus]
  split
  case h_1 x k hlimb => exact if_pos (hread x k hlimb)
  case h_2 => rfl

/-- A step that takes a read of a readable word gives the host that word. -/
theorem step_read {s : State} {addr : Nat} {rest : List HostAccess} (hp : s.pending = .read addr :: rest)
    (hbus : s.onBus addr = true) (hread : ∀ x k, limbAt addr = some (x, k) → s.limbReadable x k = true) :
    step s = .next { s with pending := rest, returned := s.returned ++ [memRead s addr] } := by
  rw [step_access hp]
  exact hostRead_of_readable (s := { s with pending := rest }) hbus hread

/-- Settles O49: a read of a readable word delivers it, and each word of the bus is the element it names. -/
theorem hostReadDeliversTheWord : Obligations.HostReadDeliversTheWord := by
  intro s addr rest hp hbus hread
  refine ⟨memRead s addr, step_read hp hbus hread, memRead_a s, memRead_b s, memRead_r s, ?_, ?_, ?_, ?_, ?_,
    memRead_of_ge s⟩ <;> rintro rfl
  · rw [memRead_f, BitVec.toNat_setWidth_of_le (by decide)]
  · exact memRead_n s
  · exact memRead_st s
  · exact memRead_cnt s
  · exact memRead_cmdImm s

/-! ### Writing -/

/-- A step that takes a write on the bus does what the write of the word does. -/
theorem step_write {s : State} {addr : Nat} {v : Word} {rest : List HostAccess} (hp : s.pending = .write addr v :: rest)
    (hbus : s.onBus addr = true) : step s = memWrite addr v { s with pending := rest } := by
  rw [step_access hp]
  exact if_pos hbus

/-- From `s` to `t`, the word at `addr` takes `v`, which the host may read; every other word, OUT, the parameters and the
host's lists are kept (20_memory.md R54). -/
structure Stored (addr : Nat) (v : Word) (s t : State) : Prop where
  reads_back : memRead t addr = v
  readable : ∀ x k, limbAt addr = some (x, k) → t.limbReadable x k = true
  others : ∀ other, other ≠ addr → memRead t other = memRead s other
  out : t.out = s.out
  cfg : t.cfg = s.cfg
  pending : t.pending = s.pending
  returned : t.returned = s.returned

/-- A limb the host wrote is a limb it may read (10_state.md R24). -/
theorem limbReadable_writeLimb_same (s : State) (x : Reg) {k : Nat} (v : Word) (hk : k < 32) :
    (s.writeLimb x k v).limbReadable x k = true := by
  simp [State.limbReadable, hk]

theorem stored_writeLimb {addr k : Nat} {x : Reg} (s : State) (v : Word) (h : limbAt addr = some (x, k)) :
    Stored addr v s (s.writeLimb x k v) where
  reads_back := memRead_writeLimb_same s v h
  readable y j hy := by
    cases h.symm.trans hy
    exact limbReadable_writeLimb_same s x v (limbAt_lt h)
  others _ ho := memRead_writeLimb_other s v h ho
  out := writeLimb_out s x k v
  cfg := writeLimb_cfg s x k v
  pending := writeLimb_pending s x k v
  returned := writeLimb_returned s x k v

theorem stored_setCmdImm (s : State) (v : Word) : Stored 0x64 v s { s with cmdImm := v } where
  reads_back := rfl
  readable _ _ h := absurd (addr_lt_of_limbAt h) (by decide)
  others _ ho := memRead_setCmdImm_other s v ho
  out := rfl
  cfg := rfl
  pending := rfl
  returned := rfl

/-- A write to a limb or to CMD_IMM stores its word (20_memory.md R54). -/
theorem memWrite_stores {addr : Nat} (v : Word) (s : State) (h : addr < 0x60 ∨ addr = 0x64) :
    ∃ t, memWrite addr v s = .next t ∧ Stored addr v s t := by
  rcases memWrite_cases addr v s with ⟨x, k, hlimb, -, hw⟩ | ⟨rfl, hw⟩ | ⟨haddr, -⟩ | ⟨hge, hne, -, -⟩
  · exact ⟨_, hw, stored_writeLimb s v hlimb⟩
  · exact ⟨_, hw, stored_setCmdImm s v⟩
  · omega
  · omega

/-- A write to a word that is no limb, nor CMD_IMM, nor CMD_CTRL has no effect (20_memory.md R54, R55). -/
theorem memWrite_ignored {addr : Nat} (v : Word) (s : State) (hge : 0x60 ≤ addr) (himm : addr ≠ 0x64)
    (hctrl : addr ≠ 0x65) : memWrite addr v s = .next s := by
  rcases memWrite_cases addr v s with ⟨x, k, hlimb, -, -⟩ | ⟨haddr, -⟩ | ⟨haddr, -⟩ | ⟨-, -, -, hw⟩
  · exact absurd (addr_lt_of_limbAt hlimb) (by omega)
  · exact absurd haddr himm
  · exact absurd haddr hctrl
  · exact hw

/-- Settles O50: the step is the write, and the write stores its word. -/
theorem hostWriteStoresOneWord : Obligations.HostWriteStoresOneWord := by
  intro s addr v rest hp hbus haddr
  obtain ⟨t, hw, ht⟩ := memWrite_stores v { s with pending := rest } haddr
  exact ⟨t, (step_write hp hbus).trans hw, ht.reads_back, ht.others, ht.out, ht.cfg, ht.pending, ht.returned⟩

/-- Settles O51: none of these addresses is that of a limb, of CMD_IMM or of CMD_CTRL. -/
theorem readOnlyAndReservedWritesAreIgnored : Obligations.ReadOnlyAndReservedWritesAreIgnored := by
  intro s addr v rest hp hbus haddr
  rw [step_write hp hbus]
  exact memWrite_ignored v _ (by omega) (by omega) (by omega)

/-! ### One access after another -/

/-- A run that ends has taken one access a step, oldest first (20_memory.md R62). -/
theorem run_pending {n : Nat} {s t : State} (h : Host.Core.run Sys2Proof.core n s = .next t) :
    t.pending = s.pending.drop n := by
  induction n generalizing s with
  | zero => cases h; rfl
  | succ n ih =>
    obtain ⟨u, hstep, hrun⟩ := run_succ.mp h
    rw [ih hrun, (step_pending hstep).1, List.drop_drop, Nat.add_comm]

/-- A read gives the word as the access before it left it (20_memory.md R63). -/
theorem run_access_read {s u : State} {acc : HostAccess} {addr : Nat} {rest : List HostAccess}
    (hp : s.pending = acc :: .read addr :: rest) (hstep : step s = .next u) (hbus : s.onBus addr = true)
    (hread : ∀ x k, limbAt addr = some (x, k) → u.limbReadable x k = true) :
    Host.Core.run Sys2Proof.core 2 s =
      .next { u with pending := rest, returned := u.returned ++ [memRead u addr] } := by
  obtain ⟨hpending, hcfg⟩ := step_pending hstep
  have hup : u.pending = .read addr :: rest := by rw [hpending, hp]; rfl
  have hubus : u.onBus addr = true := by rw [State.onBus, hcfg]; exact hbus
  exact run_succ.mpr ⟨u, hstep, run_succ.mpr ⟨_, step_read hup hubus hread, rfl⟩⟩

/-- Settles O56: a write then a read is a case of an access then a read, the access having stored the word. -/
theorem accessesTakeEffectInOrder : Obligations.AccessesTakeEffectInOrder := by
  refine ⟨fun s acc rest => step_access, fun s t n => run_pending, fun s addr v rest hp hbus haddr => ?_,
    fun s u acc addr rest => run_access_read⟩
  obtain ⟨t, hw, ht⟩ := memWrite_stores v { s with pending := .read addr :: rest } haddr
  have hrun := run_access_read hp ((step_write hp hbus).trans hw) hbus ht.readable
  exact ⟨_, hrun, by rw [ht.reads_back, ht.returned], rfl⟩

end Sys2Proof.Proofs
end

section
/-! PROOFS. 30_encoding.md R84, 20_memory.md R57: a word that decodes is the encoder's word of its command, so it is
well-formed, and what a write to CMD_CTRL runs. -/

namespace Sys2Proof.Proofs

open Sys2Proof Sys2Proof.Machine Sys2Proof.Laws

/-! ### What a word that decodes holds -/

/-- The D or S field that names a register (30_encoding.md R82). -/
def selField (x : Reg) : BitVec 2 := (sel x).setWidth 2

theorem eq_selField {d : BitVec 2} {x : Reg} (h : readSelector d = some x) : d = selField x := by
  unfold readSelector at h
  split at h
  · cases h; assumption
  split at h
  · cases h; assumption
  split at h
  · cases h; assumption
  · cases h

theorem formPlain_ok {d s : BitVec 2} {i j : Instr} (h : formPlain d s i = .ok j) : d = 0 ∧ s = 0 ∧ j = i := by
  unfold formPlain at h
  split at h
  case isTrue hz => cases h; exact ⟨hz.1, hz.2, rfl⟩
  case isFalse => cases h

theorem formDest_ok {d s : BitVec 2} {mk : Reg → Instr} {j : Instr} (h : formDest d s mk = .ok j) :
    ∃ x, d = selField x ∧ s = 0 ∧ j = mk x := by
  unfold formDest at h
  split at h
  case isTrue hs =>
    split at h
    case h_1 x hd => cases h; exact ⟨x, eq_selField hd, hs, rfl⟩
    case h_2 => cases h
  case isFalse => cases h

theorem formDestSrc_ok {d s : BitVec 2} {mk : Reg → Reg → Instr} {j : Instr} (h : formDestSrc d s mk = .ok j) :
    ∃ x y, d = selField x ∧ s = selField y ∧ j = mk x y := by
  unfold formDestSrc at h
  split at h
  case h_1 x y hd hs => cases h; exact ⟨x, y, eq_selField hd, eq_selField hs, rfl⟩
  case h_2 => cases h

/-- A plain command's word is its opcode alone. -/
theorem word_of_formPlain {op : BitVec 8} {d s : BitVec 2} {i j : Instr} (h : formPlain d s i = .ok j)
    (hi : wordOfFields op 0 0 = (encode i).busWord) : wordOfFields op d s = (encode j).busWord := by
  obtain ⟨rfl, rfl, rfl⟩ := formPlain_ok h
  exact hi

/-- A row of the opcode map answers, or the rows after it do. -/
theorem row_or_rest {p : Prop} [Decidable p] {row rest : Except IllegalCause Instr} {i : Instr}
    (h : (if p then row else rest) = .ok i) : p ∧ row = .ok i ∨ rest = .ok i :=
  (ite_eq_iff.mp h).imp_right And.right

/-- The fields that decode are the fields the encoder writes (30_encoding.md R81, R85): the rows in the map's order. -/
theorem word_of_decodeOp {op : BitVec 8} {d s : BitVec 2} {imm : Word} {i : Instr} (h : decodeOp op d s imm = .ok i) :
    wordOfFields op d s = (encode i).busWord := by
  unfold decodeOp at h
  repeat' with_reducible rcases row_or_rest h with ⟨rfl, h⟩ | h
  · exact word_of_formPlain h rfl
  · obtain ⟨x, rfl, rfl, rfl⟩ := formDest_ok h
    cases x <;> rfl
  · obtain ⟨x, y, rfl, rfl, rfl⟩ := formDestSrc_ok h
    cases x <;> cases y <;> rfl
  iterate 12 exact word_of_formPlain h rfl
  · cases h

/-- A word that decodes is the bus word of its command (30_encoding.md R84). -/
theorem eq_busWord_of_decode {v imm : Word} {i : Instr} (h : decode v imm = .ok i) : v = (encode i).busWord := by
  obtain ⟨hhigh, hreserved, hop⟩ := decode_ok h
  exact (eq_wordOfFields hhigh hreserved).trans (word_of_decodeOp hop)

theorem wellFormed_busWord (i : Instr) : wellFormed (encode i).busWord = true := by
  cases i with
  | ldi d imm => exact EncodedWellFormed.ldi d imm
  | mov d src => exact EncodedWellFormed.mov d src
  | bit idx => exact EncodedWellFormed.bit idx
  | pow2 idx => exact EncodedWellFormed.pow2 idx
  | _ => rfl

theorem wellFormed_of_decode {v imm : Word} {i : Instr} (h : decode v imm = .ok i) : wellFormed v = true := by
  rw [eq_busWord_of_decode h]
  exact wellFormed_busWord i

/-! ### Issuing -/

/-- A word that is not well-formed raises ILLEGAL (20_memory.md R57; 60_exceptions.md R273). -/
theorem issue_of_not_wellFormed {v : Word} (s : State) (h : wellFormed v = false) :
    issue v s = raise .illegal s := by
  cases hd : decode v s.cmdImm with
  | ok i => rw [wellFormed_of_decode hd] at h; cases h
  | error e => exact issue_error hd

/-- Settles O47: the step is the write, the write is the issue, and a word that decodes would be well-formed. -/
theorem stepRunsDecodedCommand : Obligations.StepRunsDecodedCommand := by
  intro s v rest hp hbus
  have hstep : step s = issue v { s with pending := rest } := step_write hp hbus
  exact ⟨hstep, fun i hi => hstep.trans (issue_ok hi), fun hv => hstep.trans (issue_of_not_wellFormed _ hv)⟩

end Sys2Proof.Proofs
end

section
/-! PROOFS. 30_encoding.md R81 to R85, R90: encoding and decoding undo each other, and the decoder accepts the opcode
map's words. -/

namespace Sys2Proof.Proofs

open Sys2Proof Sys2Proof.Machine Sys2Proof.Laws

/-! ### Decoding what was encoded -/

/-- A command's bus word decodes to that command, with the latch as the immediate where it reads one. -/
theorem decode_busWord (i : Instr) (imm : Word) : decode (encode i).busWord imm = .ok (withImm imm i) := by
  rw [decode_imm]
  cases i with
  | ldi d _ =>
    change (decode (encode (.ldi d 0)).busWord 0).map (withImm imm) = _
    cases d <;> rfl
  | bit _ =>
    change (decode (encode (.bit 0)).busWord 0).map (withImm imm) = _
    rfl
  | pow2 _ =>
    change (decode (encode (.pow2 0)).busWord 0).map (withImm imm) = _
    rfl
  | mov d src => cases d <;> cases src <;> rfl
  | _ => rfl

theorem withImm_encode_imm (i : Instr) : withImm (encode i).imm i = i := by
  cases i <;> rfl

theorem encode_withImm_ctrl (imm : Word) (i : Instr) : (encode (withImm imm i)).ctrl = (encode i).ctrl := by
  cases i <;> rfl

/-- LDI, BIT and POW2 are the commands that read IMM (30_encoding.md R92). -/
theorem withImm_of_ignores {i : Instr} (imm : Word) (hldi : ∀ d v, i ≠ .ldi d v) (hbit : ∀ n, i ≠ .bit n)
    (hpow2 : ∀ n, i ≠ .pow2 n) : withImm imm i = i := by
  cases i with
  | ldi d v => exact absurd rfl (hldi d v)
  | bit n => exact absurd rfl (hbit n)
  | pow2 n => exact absurd rfl (hpow2 n)
  | _ => rfl

/-- Settles O13: the encoder's word decodes to the command with the latch as its immediate. -/
theorem decodeEncodeRoundTrip : Obligations.DecodeEncodeRoundTrip := by
  intro i
  refine ⟨?_, fun imm => ⟨⟨_, decode_busWord i imm, encode_withImm_ctrl imm i⟩, fun hldi hbit hpow2 => ?_⟩⟩
  · rw [decode_busWord, withImm_encode_imm]
  · rw [decode_busWord, withImm_of_ignores imm hldi hbit hpow2]

/-! ### Encoding what was decoded -/

theorem withImm_of_decode {v imm : Word} {i : Instr} (h : decode v imm = .ok i) : withImm imm i = i := by
  rw [eq_busWord_of_decode h, decode_busWord] at h
  exact Except.ok.inj h

/-- Settles O14: a word that decodes is its command's word, and a decoded command holds the latch's immediate. -/
theorem decodedWordsEncodeBack : Obligations.DecodedWordsEncodeBack := by
  intro v imm i h
  have himm := withImm_of_decode h
  refine ⟨(eq_busWord_of_decode h).symm, ?_⟩
  rintro (⟨d, w, rfl⟩ | ⟨n, rfl⟩ | ⟨n, rfl⟩)
  · exact (Instr.ldi.inj himm).2.symm
  · exact (Instr.bit.inj himm).symm
  · exact (Instr.pow2.inj himm).symm

/-! ### The words of the opcode map -/

/-- A selector other than the reserved 3 is the field of a register (30_encoding.md R82). -/
theorem exists_selField_eq {d : BitVec 2} (h : d ≠ 3) : ∃ x, d = selField x := by
  have hsome : ∀ d : BitVec 2, d ≠ 3 → (readSelector d).isSome = true := by decide
  obtain ⟨x, hx⟩ := Option.isSome_iff_exists.mp (hsome d h)
  exact ⟨x, eq_selField hx⟩

theorem setWidth_selField (x : Reg) : (selField x).setWidth 32 = sel x := by
  cases x <;> rfl

/-- Masking all but a field of a word leaves the field in its place. -/
theorem and_fieldMask (c : BitVec 32) (lo len : Nat) :
    c &&& (BitVec.allOnes len).setWidth 32 <<< lo = (c.extractLsb' lo len).setWidth 32 <<< lo := by
  apply BitVec.eq_of_getLsbD_eq
  intro i hi
  by_cases hlo : i < lo
  · simp [hlo]
  · simp [hi, hlo, show lo + (i - lo) = i by omega, Bool.and_comm]

/-- A word is the part that a mask keeps together with the part that it drops. -/
theorem and_or_and_not {w : Nat} (c m : BitVec w) : c &&& m ||| c &&& ~~~m = c := by
  rw [← BitVec.and_or_distrib_left, BitVec.or_not_self, BitVec.and_allOnes]

theorem hits_iff {row : OpRow} {c : BitVec 32} : row.hits c = true ↔ c &&& row.mask = row.pattern := beq_iff_eq

/-- A row without operand fields has one word, its match. -/
theorem eq_of_full_mask {c pattern : BitVec 32} (hits : c &&& 0xFFFFFFFF = pattern) : c = pattern :=
  (BitVec.and_allOnes (x := c)).symm.trans hits

/-- LDI's row: beside the match, the D field. -/
theorem ctrl_of_ldi_row {c : BitVec 32} (hits : c &&& 0xFFFFFCFF = 0x00000001) (hd : destOk c .fd = true) :
    ∃ i, c = (encode i).ctrl := by
  obtain ⟨x, hx⟩ := exists_selField_eq (bne_iff_ne.mp hd)
  have hmask : ~~~(0xFFFFFCFF : BitVec 32) = (BitVec.allOnes 2).setWidth 32 <<< 8 := by decide
  refine ⟨.ldi x 0, ?_⟩
  calc c = c &&& 0xFFFFFCFF ||| c &&& ~~~0xFFFFFCFF := (and_or_and_not c _).symm
    _ = (0x00000001 : BitVec 32) ||| sel x <<< 8 := by
      rw [hits, hmask, and_fieldMask, hx, setWidth_selField]

/-- MOV's row: beside the match, the D and S fields. -/
theorem ctrl_of_mov_row {c : BitVec 32} (hits : c &&& 0xFFFFF0FF = 0x00000002) (hd : destOk c .fds = true)
    (hs : srcOk c .fds = true) : ∃ i, c = (encode i).ctrl := by
  obtain ⟨x, hx⟩ := exists_selField_eq (bne_iff_ne.mp hd)
  obtain ⟨y, hy⟩ := exists_selField_eq (bne_iff_ne.mp hs)
  have hmask : ~~~(0xFFFFF0FF : BitVec 32) =
      (BitVec.allOnes 2).setWidth 32 <<< 8 ||| (BitVec.allOnes 2).setWidth 32 <<< 10 := by decide
  refine ⟨.mov x y, ?_⟩
  calc c = c &&& 0xFFFFF0FF ||| c &&& ~~~0xFFFFF0FF := (and_or_and_not c _).symm
    _ = (0x00000002 : BitVec 32) ||| (sel x <<< 8 ||| sel y <<< 10) := by
      rw [hits, hmask, BitVec.and_or_distrib_left, and_fieldMask, and_fieldMask, hx, hy,
        setWidth_selField, setWidth_selField]
    _ = (0x00000002 : BitVec 32) ||| sel x <<< 8 ||| sel y <<< 10 := (BitVec.or_assoc ..).symm

/-- A word that hits a row of the opcode map is the CTRL word of a command (30_encoding.md R85). -/
theorem ctrl_of_row {row : OpRow} {c : BitVec 32} (hrow : row ∈ opcodeMap) (hits : row.hits c = true)
    (hd : destOk c row.format = true) (hs : srcOk c row.format = true) : ∃ i, c = (encode i).ctrl := by
  rw [hits_iff] at hits
  simp only [opcodeMap, List.cons_append, List.nil_append, List.mem_cons, List.not_mem_nil, or_false] at hrow
  rcases hrow with rfl | rfl | rfl | rfl | rfl | rfl | rfl | rfl | rfl | rfl | rfl | rfl | rfl | rfl | rfl
  · exact ⟨.nop, eq_of_full_mask hits⟩
  · exact ctrl_of_ldi_row hits hd
  · exact ctrl_of_mov_row hits hd hs
  · exact ⟨.add, eq_of_full_mask hits⟩
  · exact ⟨.sub, eq_of_full_mask hits⟩
  · exact ⟨.mul, eq_of_full_mask hits⟩
  · exact ⟨.div, eq_of_full_mask hits⟩
  · exact ⟨.lt, eq_of_full_mask hits⟩
  · exact ⟨.eq, eq_of_full_mask hits⟩
  · exact ⟨.lzc, eq_of_full_mask hits⟩
  · exact ⟨.msb, eq_of_full_mask hits⟩
  · exact ⟨.bit 0, eq_of_full_mask hits⟩
  · exact ⟨.pow2 0, eq_of_full_mask hits⟩
  · exact ⟨.print, eq_of_full_mask hits⟩
  · exact ⟨.rdcnt, eq_of_full_mask hits⟩

/-- Without its upper half a bus word is its CTRL word (20_memory.md R57). -/
theorem eq_setWidth_ctrl {v : Word} (h : busHighOk v = true) : v = (v.setWidth 32).setWidth 64 := by
  have hhigh : v.toNat / 2 ^ 32 % 2 ^ 32 = 0 := by
    simpa [BitVec.extractLsb'_toNat, Nat.shiftRight_eq_div_pow] using congrArg BitVec.toNat (beq_iff_eq.mp h)
  have hlt := v.isLt
  apply BitVec.eq_of_toNat_eq
  simp only [BitVec.toNat_setWidth]
  omega

/-- A well-formed word is the bus word of a command. -/
theorem exists_busWord_of_wellFormed {v : Word} (h : wellFormed v = true) : ∃ i, v = (encode i).busWord := by
  simp only [wellFormed, Bool.and_eq_true, List.any_eq_true] at h
  obtain ⟨hhigh, row, hrow, ⟨hits, hd⟩, hs⟩ := h
  obtain ⟨i, hi⟩ := ctrl_of_row hrow hits hd hs
  exact ⟨i, by rw [eq_setWidth_ctrl hhigh, hi]; rfl⟩

/-- Settles O15: a well-formed word is a command's bus word, and that word decodes. -/
theorem decoderAcceptsTheOpcodeMap : Obligations.DecoderAcceptsTheOpcodeMap := by
  refine fun v imm => ⟨fun ⟨_, h⟩ => wellFormed_of_decode h, fun h => ?_⟩
  obtain ⟨i, rfl⟩ := exists_busWord_of_wellFormed h
  exact ⟨_, decode_busWord i imm⟩

/-- Settles O16: the legal words are the encoder's words of their commands. -/
theorem writtenOutWordsDecode : Obligations.WrittenOutWordsDecode :=
  ⟨decode_busWord .add 9, decode_busWord (.ldi .b 7) 7, decode_busWord (.mov .a .r) 9,
    decode_busWord (.pow2 100) 0x64, decode_busWord .lt 9, decode_busWord .print 9, decode_busWord .rdcnt 9, by decide⟩

/-! ### Issuing and placing a word -/

/-- Settles O20: a word that is not well-formed decodes to no command, and so raises ILLEGAL. -/
theorem illegalWordFaults : Obligations.IllegalWordFaults :=
  fun _ s h => issue_of_not_wellFormed s h

theorem decode_of_decodeTableWord {nbits w : Nat} {i : Instr} (h : decodeTableWord nbits w = some i) :
    decode (tableCtrl nbits w) (tableImm nbits w) = .ok i := by
  unfold decodeTableWord at h
  split at h
  case isTrue =>
    cases hd : decode (tableCtrl nbits w) (tableImm nbits w) with
    | ok j => rw [hd] at h; exact congrArg _ (Option.some.inj h)
    | error e => rw [hd] at h; cases h
  case isFalse => cases h

/-- Settles O48: the placed write is the oldest access, and it issues the word at the placed immediate. -/
theorem placedCommandRunsNext : Obligations.PlacedCommandRunsNext := by
  intro s nbits w i hbus hi
  have hstep : step (s.withFetchWord nbits w) = issue (tableCtrl nbits w) { s with cmdImm := tableImm nbits w } :=
    step_write (s := s.withFetchWord nbits w) rfl hbus
  rw [hstep]
  exact issue_ok (decode_of_decodeTableWord hi)

end Sys2Proof.Proofs
end

section
/-! PROOFS. 30_encoding.md R83, R92: a command never reads the latch CMD_IMM itself, only the immediate it was decoded
with. -/

namespace Sys2Proof.Proofs

open Sys2Proof Sys2Proof.Machine Sys2Proof.Laws

/-- `s` with another immediate in the latch. -/
def setImm (imm : Word) (s : State) : State := { s with cmdImm := imm }

/-- The answer with `f` applied to its next state. -/
def onNext (f : State → State) : Answer → Answer
  | .next t => .next (f t)
  | .fault r => .fault r
  | .refused r => .refused r

theorem withVal_setImm {x : Reg} {s : State} {imm : Word} {k k' : Val → Answer}
    (h : ∀ v, k' v = onNext (setImm imm) (k v)) :
    withVal x (setImm imm s) k' = onNext (setImm imm) (withVal x s k) := by
  have hval : (setImm imm s).val x = s.val x := by cases x <;> rfl
  have hread : (setImm imm s).readable x = s.readable x := by cases x <;> rfl
  rw [withVal, withVal, hval, hread, h]
  split <;> rfl

theorem withAB_setImm {s : State} {imm : Word} {k k' : Val → Val → Answer}
    (h : ∀ x y, k' x y = onNext (setImm imm) (k x y)) :
    withAB (setImm imm s) k' = onNext (setImm imm) (withAB s k) :=
  withVal_setImm fun x => withVal_setImm fun y => h x y

theorem complete_setVal_setImm (d : Reg) (v : Val) (s : State) (imm : Word) :
    complete ((setImm imm s).setVal d v) = onNext (setImm imm) (complete (s.setVal d v)) := by
  cases d <;> rfl

/-- Another immediate in the latch changes nothing in what a command answers but the latch. -/
theorem exec_setImm (i : Instr) (s : State) (imm : Word) :
    exec i (setImm imm s) = onNext (setImm imm) (exec i s) := by
  cases i with
  | nop | rdcnt => rfl
  | ldi d v => exact complete_setVal_setImm d _ s imm
  | mov d src => exact withVal_setImm fun v => complete_setVal_setImm d v s imm
  | add | sub | mul | lt | eq =>
    simp only [exec, execAdd, execSub, execMul, execLt, execEq]
    exact withAB_setImm fun _ _ => rfl
  | lzc | print =>
    simp only [exec, execLzc, execPrint]
    exact withVal_setImm fun _ => rfl
  | div =>
    rw [exec, exec, execDiv, execDiv]
    refine withAB_setImm fun _ _ => ?_
    split <;> rfl
  | msb | bit _ =>
    simp only [exec, execMsb, execBit]
    refine withVal_setImm fun _ => ?_
    split <;> rfl
  | pow2 n =>
    rw [exec, exec, execPow2, execPow2]
    split
    · exact complete_setVal_setImm ..
    · rfl

/-- Settles O42: the word decodes to the same command under any latch value, and the command leaves the latch alone. -/
theorem ignoredImmediateDoesNotMatter : Obligations.IgnoredImmediateDoesNotMatter := by
  intro v imm i s t hi hldi hbit hpow2 h
  have hi' : decode v imm = .ok i := by
    rw [eq_busWord_of_decode hi, decode_busWord, withImm_of_ignores imm hldi hbit hpow2]
  rw [issue_ok hi] at h
  calc issue v (setImm imm s) = exec i (setImm imm s) := issue_ok hi'
    _ = onNext (setImm imm) (exec i s) := exec_setImm i s imm
    _ = .next (setImm imm t) := by rw [h]; rfl

end Sys2Proof.Proofs
end

section
/-! PROOFS. 10_state.md R24, 60_exceptions.md R272: a command whose operands are readable ends, and one with no operand
check of its own ends with its own effect. -/

namespace Sys2Proof.Proofs

open Sys2Proof Sys2Proof.Machine Sys2Proof.Laws

/-- The value registers that a command reads when it starts (10_state.md R22). -/
def operandsRead : Instr → List Reg
  | .nop | .ldi _ _ | .pow2 _ | .rdcnt => []
  | .mov _ src => [src]
  | .lzc | .msb | .bit _ | .print => [.a]
  | .add | .sub | .mul | .div | .lt | .eq => [.a, .b]

/-- The command ends with a next state. -/
def Ends (o : Answer) : Prop := ∃ t, o = .next t

theorem complete_ends (s : State) : Ends (complete s) := ⟨_, rfl⟩

theorem raise_ends (k : FaultCode) (s : State) : Ends (raise k s) := ⟨_, rfl⟩

theorem ite_ends {p : Prop} [Decidable p] {x y : Answer} (hx : Ends x) (hy : Ends y) : Ends (if p then x else y) := by
  split
  · exact hx
  · exact hy

/-- The readable registers are given as `operandsRead` lists them. -/
theorem withVal_ends {x : Reg} {s : State} {k : Val → Answer} (h : ∀ y ∈ [x], s.readable y = true)
    (hk : ∀ v, Ends (k v)) : Ends (withVal x s k) := by
  rw [withVal_of_readable k (h x (by simp))]
  exact hk _

theorem withAB_ends {s : State} {k : Val → Val → Answer} (h : ∀ y ∈ [Reg.a, Reg.b], s.readable y = true)
    (hk : ∀ x y, Ends (k x y)) : Ends (withAB s k) := by
  rw [withAB_of_readable k (h .a (by simp)) (h .b (by simp))]
  exact hk _ _

/-- A command whose operands are readable ends with a next state (10_state.md R24; 70_reset_and_hazards.md R307). -/
theorem exec_ends {i : Instr} {s : State} (h : ∀ x ∈ operandsRead i, s.readable x = true) : Ends (exec i s) := by
  cases i with
  | nop | ldi _ _ | rdcnt => exact complete_ends _
  | pow2 _ => exact ite_ends (complete_ends _) (raise_ends _ _)
  | mov _ _ =>
    rw [exec, execMov]
    exact withVal_ends h fun _ => complete_ends _
  | lzc | print =>
    simp only [exec, execLzc, execPrint]
    exact withVal_ends h fun _ => complete_ends _
  | msb =>
    rw [exec, execMsb]
    exact withVal_ends h fun _ => ite_ends (raise_ends _ _) (complete_ends _)
  | bit _ =>
    rw [exec, execBit]
    exact withVal_ends h fun _ => ite_ends (complete_ends _) (raise_ends _ _)
  | add | sub | mul | lt | eq =>
    simp only [exec, execAdd, execSub, execMul, execLt, execEq]
    exact withAB_ends h fun _ _ => complete_ends _
  | div =>
    rw [exec, execDiv]
    exact withAB_ends h fun _ _ => ite_ends (raise_ends _ _) (complete_ends _)

/-- The commands with an operand check of their own (60_exceptions.md R271). -/
def operandChecked : Instr → Bool
  | .div | .msb | .bit _ | .pow2 _ => true
  | .nop | .ldi _ _ | .mov _ _ | .add | .sub | .mul | .lt | .eq | .lzc | .print | .rdcnt => false

theorem not_trips {i : Instr} (s : State) (h : operandChecked i = false) (k : FaultCode) : ¬ Trips i s k := by
  cases k with
  | illegal => exact id
  | divZero => rintro ⟨rfl, -⟩; cases h
  | badIndex => rintro ⟨n, rfl | rfl, -⟩ <;> cases h
  | zeroOperand => rintro ⟨rfl, -⟩; cases h

/-- A command with readable operands and no check has its own effect (60_exceptions.md R272). -/
theorem exec_unchecked {i : Instr} {s : State} (h : ∀ x ∈ operandsRead i, s.readable x = true)
    (hi : operandChecked i = false) : exec i s = .next { ownEffect i s with st := withCode s.st 0 } := by
  obtain ⟨t, ht⟩ := exec_ends h
  rcases exec_cases ht with ⟨k, hk, -⟩ | ⟨-, rfl⟩
  · exact absurd hk (not_trips s hi k)
  · exact ht

theorem exec_mov {d src : Reg} {s : State} (h : s.readable src = true) :
    exec (.mov d src) s = .next { s.setVal d (s.val src) with st := withCode s.st 0 } :=
  exec_unchecked (i := .mov d src) (by simpa [operandsRead] using h) rfl

theorem exec_lt {s : State} (ha : s.readable .a = true) (hb : s.readable .b = true) :
    exec .lt s = .next { s with f := flagOf (decide (s.a.toNat < s.b.toNat)), st := withCode s.st 0 } :=
  exec_unchecked (i := .lt) (by simpa [operandsRead] using ⟨ha, hb⟩) rfl

theorem exec_print {s : State} (h : s.readable .a = true) :
    exec .print s = .next { ownEffect .print s with st := withCode s.st 0 } :=
  exec_unchecked (by simpa [operandsRead] using h) rfl

end Sys2Proof.Proofs
end

section
/-! PROOFS. 30_encoding.md R90, R91: the assembler's lines, and the pseudo-instructions as runs of their commands. -/

namespace Sys2Proof.Proofs

open Sys2Proof Sys2Proof.Machine Sys2Proof.Reference Sys2Proof.Laws

/-! ### Runs of commands -/

theorem execAll_cons {i : Instr} {s t : State} (is : List Instr) (h : exec i s = .next t) :
    execAll (i :: is) s = execAll is t := by
  rw [execAll, h]

theorem execAll_append {is : List Instr} {s t : State} (js : List Instr) (h : execAll is s = .next t) :
    execAll (is ++ js) s = execAll js t := by
  induction is generalizing s with
  | nil => cases h; rfl
  | cons i is ih =>
    rw [execAll] at h
    split at h
    case h_1 u hu => rw [List.cons_append, execAll_cons _ hu, ih h]
    case h_2 => cases h
    case h_3 => cases h

/-- The second of two CODE writes is the one that stays. -/
theorem withCode_withCode (st : Word) (j k : BitVec 4) : withCode (withCode st j) k = withCode st k := by
  apply BitVec.eq_of_getLsbD_eq
  intro i _
  simp only [withCode_getLsbD]
  split <;> rfl

/-! ### The pseudo-instructions -/

/-- `s` after SWAP: A and B exchanged, the old A in R too, all three written (30_encoding.md R91). -/
def swapped (s : State) : State :=
  { s with
    a := s.b
    b := s.a
    r := s.a
    st := withCode s.st 0
    written := ⟨BitVec.allOnes 32, BitVec.allOnes 32, BitVec.allOnes 32⟩ }

theorem readable_swapped (s : State) (x : Reg) : (swapped s).readable x = true := by
  have hmarks : (swapped s).marks x = BitVec.allOnes 32 := by cases x <;> rfl
  simp [State.readable, hmarks]

/-- SWAP reads no register but A and B that it has not written itself. -/
theorem execAll_swap {s : State} (ha : s.readable .a = true) (hb : s.readable .b = true) :
    execAll swapExpansion s = .next (swapped s) := by
  rw [swapExpansion, execAll_cons _ (exec_mov ha), execAll_cons _ (exec_mov ?readB), execAll_cons _ (exec_mov ?readR)]
  case readB => exact hb
  case readR => simp [State.readable, State.marks, State.setVal]
  simp only [execAll, State.setVal, State.val, withCode_withCode, swapped]

theorem flagOf_decide (p : Prop) [Decidable p] : flagOf (decide p) = if p then 1 else 0 := by
  split
  case isTrue h => rw [decide_eq_true h]; rfl
  case isFalse h => rw [decide_eq_false h]; rfl

/-- GT compares the exchanged operands and exchanges them back. -/
theorem execAll_gt {s : State} (ha : s.readable .a = true) (hb : s.readable .b = true) :
    execAll gtExpansion s = .next (swapped { swapped s with f := flagOf (decide (s.b.toNat < s.a.toNat)) }) := by
  have hlt := exec_lt (readable_swapped s .a) (readable_swapped s .b)
  rw [gtExpansion, List.append_assoc, execAll_append _ (execAll_swap ha hb), List.singleton_append,
    execAll_cons _ hlt, execAll_swap ?readA ?readB]
  case readA => exact readable_swapped s .a
  case readB => exact readable_swapped s .b
  simp only [swapped, withCode_withCode]
  rfl

/-- PRINTR moves R to A and renders A (45_decimal.md R216). -/
theorem execAll_printr {s : State} (hr : s.readable .r = true) :
    ∃ t, execAll printrExpansion s = .next t ∧ t.a = s.r ∧
      t.out = s.out ++ (decimalDigits s.r.toNat).map digitByte := by
  rw [printrExpansion, execAll_cons _ (exec_mov hr), execAll_cons _ (exec_print ?readA)]
  case readA => simp [State.readable, State.marks, State.setVal]
  exact ⟨_, rfl, rfl, rfl⟩

theorem immValue_zero : immValue 0 = 0 := BitVec.setWidth_zero ..

theorem execAll_clr (d : Reg) (s : State) : ∃ t, execAll (clrExpansion d) s = .next t ∧ t.val d = 0 := by
  refine ⟨_, rfl, ?_⟩
  cases d <;> exact immValue_zero

theorem assembleLine_pseudo :
    assembleLine "CLR A" = .ok (clrExpansion .a) ∧ assembleLine "CLR B" = .ok (clrExpansion .b) ∧
      assembleLine "CLR R" = .ok (clrExpansion .r) ∧ assembleLine "PRINTR" = .ok printrExpansion ∧
      assembleLine "SWAP" = .ok swapExpansion ∧ assembleLine "GT" = .ok gtExpansion := by
  decide

/-- Settles O46: each pseudo-instruction is run command by command; GT is LT between two exchanges. -/
theorem pseudoInstructionsDoAsNamed : Obligations.PseudoInstructionsDoAsNamed := by
  intro s ha hb hr
  refine ⟨rfl, rfl, rfl, rfl, assembleLine_pseudo, fun d => execAll_clr d s, execAll_printr hr,
    ⟨_, execAll_swap ha hb, rfl, rfl, rfl, rfl⟩, ⟨_, execAll_gt ha hb, flagOf_decide _, rfl, rfl, rfl, rfl⟩⟩

/-- Settles O59: the assembler is run on each line. -/
theorem assemblerExamples : Obligations.AssemblerExamples := by
  unfold Obligations.AssemblerExamples
  decide

end Sys2Proof.Proofs
end

section
/-! PROOFS. 40_construction_compare.md R110 to R116: the comparator, what LDI, MOV, LT and EQ write, and what they leave
unchanged. -/

namespace Sys2Proof.Proofs

open Sys2Proof Sys2Proof.Machine Sys2Proof.Laws

/-! ### The comparator -/

/-- Settles O2: the comparator's three answers are the numbers' comparisons, and of those exactly one holds. -/
theorem comparatorIsUnsignedOrder : Obligations.ComparatorIsUnsignedOrder := by
  intro x y
  have heq : eqVal x y = true ↔ x.toNat = y.toNat := (eqVal_iff x y).trans BitVec.toNat_inj.symm
  refine ⟨heq, ltVal_iff x y, leVal_iff x y, ?_, ?_⟩
  · rw [ltVal_decide, decide_eq_false (Nat.lt_irrefl _)]
  · simp only [← Bool.not_eq_true, heq, ltVal_iff]
    omega

/-! ### What writing ST, F or a value register leaves unchanged -/

theorem setSt_val (s : State) (st : Word) (x : Reg) : ({ s with st := st } : State).val x = s.val x := by
  cases x <;> rfl

theorem setSt_marks (s : State) (st : Word) (x : Reg) : ({ s with st := st } : State).marks x = s.marks x := by
  cases x <;> rfl

/-- Of the bus words, ST's alone depends on ST. -/
theorem memRead_setSt_other {addr : Nat} (s : State) (st : Word) (h : addr ≠ 0x62) :
    memRead { s with st := st } addr = memRead s addr := by
  simp only [memRead, if_neg h]

/-- Of the bus words, F's alone depends on F. -/
theorem memRead_setF_other {addr : Nat} (s : State) (f : BitVec 1) (h : addr ≠ 0x60) :
    memRead { s with f := f } addr = memRead s addr := by
  simp only [memRead, if_neg h]

/-- Of the bus words, a register's own limbs alone depend on it (20_memory.md R52). -/
theorem memRead_setVal_other {addr : Nat} {d : Reg} (s : State) (v : Val) (h : ∀ k, limbAt addr ≠ some (d, k)) :
    memRead (s.setVal d v) addr = memRead s addr := by
  cases hl : limbAt addr with
  | none => exact memRead_no_limb hl (setVal_f ..) (setVal_n ..) (setVal_st ..) (setVal_cnt ..) (setVal_cmdImm ..)
  | some xk =>
    obtain ⟨x, k⟩ := xk
    have hx : x ≠ d := fun hxd => h k (hxd ▸ hl)
    rw [memRead_limb _ hl, memRead_limb _ hl, setVal_val_other _ _ hx]

/-! ### The words that raise ILLEGAL -/

/-- The reserved selector 3 is no register's field (30_encoding.md R82). -/
theorem selField_ne_three (x : Reg) : selField x ≠ 3 := by
  cases x <;> decide

/-- A word of LDI's opcode that decodes has a register's D field and a zero S field (30_encoding.md R83). -/
theorem fields_of_decode_ldi {v imm : Word} {i : Instr} (hop : v.extractLsb' 0 8 = 1) (h : decode v imm = .ok i) :
    v.extractLsb' 8 2 ≠ 3 ∧ v.extractLsb' 10 2 = 0 := by
  obtain ⟨-, -, hform⟩ := decode_ok h
  rw [hop] at hform
  obtain ⟨x, hd, hs, -⟩ := formDest_ok hform
  exact ⟨hd ▸ selField_ne_three x, hs⟩

/-- A word of MOV's opcode that decodes has registers' D and S fields (30_encoding.md R83). -/
theorem fields_of_decode_mov {v imm : Word} {i : Instr} (hop : v.extractLsb' 0 8 = 2) (h : decode v imm = .ok i) :
    v.extractLsb' 8 2 ≠ 3 ∧ v.extractLsb' 10 2 ≠ 3 := by
  obtain ⟨-, -, hform⟩ := decode_ok h
  rw [hop] at hform
  obtain ⟨x, y, hd, hs, -⟩ := formDestSrc_ok hform
  exact ⟨hd ▸ selField_ne_three x, hs ▸ selField_ne_three y⟩

/-- A word that decodes to no command raises ILLEGAL (20_memory.md R57; 60_exceptions.md R273). -/
theorem issue_of_not_decoded {v : Word} {s : State} (h : ∀ i, decode v s.cmdImm ≠ .ok i) :
    issue v s = raise .illegal s := by
  cases hd : decode v s.cmdImm with
  | ok i => exact absurd hd (h i)
  | error e => exact issue_error hd

/-! ### LDI -/

theorem immValue_toNat (imm : Word) : (immValue imm).toNat = imm.toNat :=
  BitVec.toNat_setWidth_of_le (by decide)

theorem limb_immValue_zero (imm : Word) : limb (immValue imm) 0 = imm := by
  apply BitVec.eq_of_toNat_eq
  rw [limb_toNat, immValue_toNat, Nat.mul_zero, Nat.pow_zero, Nat.div_one, Nat.mod_eq_of_lt imm.isLt]

/-- IMM fits limb 0 (40_construction_compare.md R110). -/
theorem limb_immValue_of_pos (imm : Word) {k : Nat} (hk : 1 ≤ k) : limb (immValue imm) k = 0 := by
  have hlt : imm.toNat < 2 ^ (64 * k) := imm.isLt.trans_le (Nat.pow_le_pow_right (by decide) (by omega))
  apply BitVec.eq_of_toNat_eq
  rw [limb_toNat, immValue_toNat, Nat.div_eq_of_lt hlt]
  rfl

theorem exec_ldi (d : Reg) (imm : Word) (s : State) :
    exec (.ldi d imm) s = .next { s.setVal d (immValue imm) with st := withCode s.st 0 } :=
  exec_unchecked (i := .ldi d imm) (by simp [operandsRead]) rfl

/-- Settles O24: LDI's own effect writes the zero-extended immediate, whose limbs are IMM and zeros. -/
theorem ldiLoadsZeroExtendedImmediate : Obligations.LdiLoadsZeroExtendedImmediate := by
  refine ⟨fun imm => ⟨decode_busWord (.ldi .a imm) imm, decode_busWord (.ldi .b imm) imm,
    decode_busWord (.ldi .r imm) imm, fun v s hop hbad => ?_⟩, fun d imm s => ⟨_, exec_ldi d imm s, ?_⟩⟩
  · refine issue_of_not_decoded fun i hi => ?_
    obtain ⟨hd, hs⟩ := fields_of_decode_ldi hop hi
    exact hbad.elim hd fun hne => hne hs
  · rw [setSt_val, setVal_val_same]
    exact ⟨limb_immValue_zero imm, fun k hk _ => limb_immValue_of_pos imm hk, immValue_toNat imm, rfl⟩

/-! ### MOV -/

/-- Settles O25: MOV's own effect writes the source's value, and a source that is not the destination is not written. -/
theorem movCopiesRegister : Obligations.MovCopiesRegister := by
  refine ⟨fun imm => ⟨decode_busWord (.mov .a .r) imm, decode_busWord (.mov .a .b) imm,
    decode_busWord (.mov .b .r) imm, decode_busWord (.mov .a .a) imm, fun v s hop hbad => ?_⟩,
    fun d src s hsrc => ⟨exec_mov hsrc, setVal_val_same s d _, ?_⟩⟩
  · refine issue_of_not_decoded fun i hi => ?_
    obtain ⟨hd, hs⟩ := fields_of_decode_mov hop hi
    exact hbad.elim hd hs
  · by_cases hsd : src = d
    · rw [← hsd, setVal_val_same]
    · exact setVal_val_other s _ hsd

/-! ### LT and EQ -/

theorem exec_eq {s : State} (ha : s.readable .a = true) (hb : s.readable .b = true) :
    exec .eq s = .next { s with f := flagOf (decide (s.a = s.b)), st := withCode s.st 0 } :=
  exec_unchecked (i := .eq) (by simpa [operandsRead] using ⟨ha, hb⟩) rfl

/-- Settles O26: LT and EQ write to F the comparison of the numbers. -/
theorem comparisonsSetFlag : Obligations.ComparisonsSetFlag := by
  refine ⟨fun imm => ⟨decode_busWord .lt imm, decode_busWord .eq imm⟩, fun s ha hb => ⟨?_, ?_⟩⟩
  · rw [exec_lt ha hb, flagOf_decide]
  · rw [exec_eq ha hb, flagOf_decide]

/-! ### Frames -/

/-- A command with no operand check that completes has had its own effect (60_exceptions.md R272). -/
theorem eq_ownEffect_of_exec {i : Instr} {s t : State} (hi : operandChecked i = false) (h : exec i s = .next t) :
    t = { ownEffect i s with st := withCode s.st 0 } := by
  rcases exec_cases h with ⟨k, hk, -⟩ | ⟨-, ht⟩
  · exact absurd hk (not_trips s hi k)
  · exact ht

/-- LDI and MOV write their destination and ST (40_construction_compare.md R110, R111). -/
theorem eq_setVal_of_exec {i : Instr} {s t : State} {d : Reg} (hi : (∃ imm, i = .ldi d imm) ∨ ∃ src, i = .mov d src)
    (h : exec i s = .next t) : ∃ v, t = { s.setVal d v with st := withCode s.st 0 } := by
  rcases hi with ⟨imm, rfl⟩ | ⟨src, rfl⟩
  · exact ⟨_, eq_ownEffect_of_exec rfl h⟩
  · exact ⟨_, eq_ownEffect_of_exec rfl h⟩

/-- LT and EQ write F and ST (40_construction_compare.md R112, R113). -/
theorem eq_setF_of_exec {i : Instr} {s t : State} (hi : i = .lt ∨ i = .eq) (h : exec i s = .next t) :
    ∃ f, t = { s with f := f, st := withCode s.st 0 } := by
  rcases hi with rfl | rfl
  · exact ⟨_, eq_ownEffect_of_exec rfl h⟩
  · exact ⟨_, eq_ownEffect_of_exec rfl h⟩

/-- Settles O36: the next state is the old one with the destination, or the flag, and ST written. -/
theorem constructionAndCompareFrame : Obligations.ConstructionAndCompareFrame := by
  refine fun i s t h => ⟨fun d hi => ?_, fun hi => ?_⟩
  · obtain ⟨v, rfl⟩ := eq_setVal_of_exec hi h
    refine ⟨fun x hx => ⟨?_, ?_⟩, setVal_f s d v, setVal_n s d v, setVal_cnt s d v, setVal_out s d v,
      setVal_cmdImm s d v, fun addr hst hlimb => ?_⟩
    · rw [setSt_val, setVal_val_other s v hx]
    · rw [setSt_marks, setVal_marks_other s v hx]
    · rw [memRead_setSt_other _ _ hst, memRead_setVal_other s v hlimb]
  · obtain ⟨f, rfl⟩ := eq_setF_of_exec hi h
    refine ⟨fun x => ?_, rfl, rfl, rfl, rfl, fun addr hf hst => ?_⟩
    · cases x <;> exact ⟨rfl, rfl⟩
    · exact (memRead_setSt_other { s with f := f } _ hst).trans (memRead_setF_other s f hf)

end Sys2Proof.Proofs
end

section
/-! PROOFS. 41_add.md R132 to R135: the adder's sum, carry and count, what ADD writes, and what the arithmetic commands
leave unchanged. -/

namespace Sys2Proof.Proofs

open Sys2Proof Sys2Proof.Machine Sys2Proof.Laws

/-! ### The adder -/

/-- The exact 65-bit sum's two halves, limb and carry, are its remainder and its quotient by 2^64. -/
theorem limbAdd_mod_and_div (x y : Word) (c : Bool) :
    (limbAdd x y c).sum.toNat = (x.toNat + y.toNat + c.toNat) % 2 ^ 64 ∧
      (limbAdd x y c).carry.toNat = (x.toNat + y.toNat + c.toNat) / 2 ^ 64 := by
  have hlt := (limbAdd x y c).sum.isLt
  rw [← limbAdd_exact x y c]
  omega

/-- Settles O3: the limb step cuts the exact sum at 2^64, and the ripple of 32 of them is the wrapped sum. -/
theorem adderIsExactAndCountsOnce : Obligations.AdderIsExactAndCountsOnce := by
  refine ⟨limbAdd_mod_and_div, fun cfg x y cnt => ⟨?_, ?_, ?_⟩⟩
  · rw [addW_sum, BitVec.toNat_add]
  · rw [addW_carry]
    exact decide_eq_true_iff
  · rw [addW_cnt, ticks_toNat _ _ _ Nat.one_ne_zero]

/-- Settles O43: the wrapped sum is addition of vectors, and two calls count one and then one more. -/
theorem additionCommutesAndAssociates : Obligations.AdditionCommutesAndAssociates := by
  intro cfg a b c cnt
  refine ⟨?_, ?_, ticks_ticks cfg 1 1 cnt, ticks_ticks cfg 1 1 cnt⟩
  · rw [addW_sum, addW_sum, BitVec.add_comm]
  · simp only [addW_sum, BitVec.add_assoc]

/-! ### ADD -/

theorem exec_add {s : State} (ha : s.readable .a = true) (hb : s.readable .b = true) :
    exec .add s =
      .next { s.setVal .r (s.a + s.b) with cnt := ticks s.cfg 1 s.cnt, st := withCode s.st 0 } :=
  exec_unchecked (i := .add) (by simpa [operandsRead] using ⟨ha, hb⟩) rfl

/-- Settles O27: ADD's own effect writes the sum of the vectors, which is the numbers' sum modulo 2^2048. -/
theorem addWritesWrappedSum : Obligations.AddWritesWrappedSum := by
  refine ⟨decode_busWord .add, fun s ha hb => ?_⟩
  rw [← BitVec.toNat_add, BitVec.ofNat_toNat, BitVec.setWidth_eq]
  exact exec_add ha hb

/-! ### The frame of the arithmetic commands -/

/-- Of the bus words, CNT's alone depends on CNT. -/
theorem memRead_setCnt_other {addr : Nat} (s : State) (cnt : Word) (h : addr ≠ 0x63) :
    memRead { s with cnt := cnt } addr = memRead s addr := by
  simp only [memRead, if_neg h]

/-- The own effect of ADD, SUB, MUL and DIV writes R and counts the command's additions. -/
theorem ownEffect_arithmetic {i : Instr} (s : State) (hi : i = .add ∨ i = .sub ∨ i = .mul ∨ i = .div) :
    ∃ v, ownEffect i s = { s.setVal .r v with cnt := ticks s.cfg (additions s i) s.cnt } := by
  rcases hi with rfl | rfl | rfl | rfl <;> exact ⟨_, rfl⟩

/-- Settles O37: DIVZERO writes ST, and a command that passes its checks writes R, CNT and ST, SUB counting nothing. -/
theorem arithmeticFrame : Obligations.ArithmeticFrame := by
  intro i s t hi h
  rcases exec_cases h with ⟨k, -, rfl⟩ | ⟨-, rfl⟩
  · exact ⟨rfl, rfl, rfl, rfl, rfl, rfl, fun _ => rfl, fun addr _ hst _ => memRead_setSt_other s _ hst⟩
  · obtain ⟨v, hown⟩ := ownEffect_arithmetic s hi
    rw [hown]
    refine ⟨rfl, rfl, rfl, rfl, rfl, rfl, ?_, fun addr hlimb hst hcnt => ?_⟩
    · rintro rfl
      exact ticks_zero s.cfg s.cnt
    · rw [memRead_setSt_other _ _ hst, memRead_setCnt_other _ _ hcnt, memRead_setVal_other s v hlimb]

end Sys2Proof.Proofs
end

section
/-! PROOFS. 42_sub.md R150 to R156: the subtractor's difference and borrow, what SUB writes, and the identities with
which an addition undoes a subtraction. -/

namespace Sys2Proof.Proofs

open Sys2Proof Sys2Proof.Machine Sys2Proof.Laws

/-! ### The subtractor -/

/-- The limb step's difference is the integers' difference, less the incoming borrow, modulo 2^64. -/
theorem limbSub_diff_toNat (x y : Word) (b : Bool) :
    ((limbSub x y b).diff.toNat : Int) = ((x.toNat : Int) - y.toNat - b.toNat) % 2 ^ 64 := by
  have hlt := (limbSub x y b).diff.isLt
  have hexact := limbSub_exact x y b
  omega

/-- The limb step borrows exactly when the limb is short of the subtrahend and the incoming borrow together. -/
theorem limbSub_borrow_iff (x y : Word) (b : Bool) :
    (limbSub x y b).borrow = true ↔ x.toNat < y.toNat + b.toNat :=
  decide_eq_true_iff

/-- Being short of the limb and the incoming borrow, by cases on that borrow: it matters for equal limbs alone. -/
theorem toNat_lt_add_borrow_iff (x y : Word) (b : Bool) :
    x.toNat < y.toNat + b.toNat ↔ x.toNat < y.toNat ∨ (b = true ∧ x = y) := by
  rw [← BitVec.toNat_inj]
  cases b
  case false => simp
  case true => simp [Nat.le_iff_lt_or_eq]

/-- A wrapped difference of vectors is the integers' difference, wrapped. -/
theorem sub_eq_ofInt {n : Nat} (x y : BitVec n) : x - y = BitVec.ofInt n ((x.toNat : Int) - y.toNat) := by
  simp [Int.sub_eq_add_neg, BitVec.ofInt_add, BitVec.ofInt_neg, BitVec.sub_eq_add_neg]

/-- `SubW` gives the integers' difference modulo 2^2048 (42_sub.md R153). -/
theorem subW_toNat (x y : Val) : ((subW x y).toNat : Int) = ((x.toNat : Int) - y.toNat) % 2 ^ 2048 := by
  rw [subW_eq, sub_eq_ofInt, BitVec.toNat_ofInt]
  exact_mod_cast Int.toNat_of_nonneg (Int.emod_nonneg _ (by positivity))

/-- Settles O4: the limb step's exact equation gives its two outputs, and the ripple of 32 of them is the wrapped
difference, exact or one modulus up. -/
theorem subtractorIsExactAndWraps : Obligations.SubtractorIsExactAndWraps := by
  refine ⟨fun x y b => ⟨limbSub_diff_toNat x y b, limbSub_borrow_iff x y b,
    (limbSub_borrow_iff x y b).trans (toNat_lt_add_borrow_iff x y b)⟩,
    fun x y => ⟨subW_toNat x y, fun hle => ?_, fun hlt => ?_⟩⟩
  · rw [subW_eq, BitVec.toNat_sub_of_le hle]
  · rw [subW_eq, BitVec.toNat_sub_of_lt hlt, Nat.sub_sub_right _ hlt.le]

/-! ### Adding back what was subtracted -/

theorem addW_subW_sum (cfg : Config) (a b : Val) (cnt : Word) : (addW cfg (subW a b) b cnt).sum = a := by
  rw [addW_sum, subW_eq, BitVec.sub_add_cancel]

theorem addW_sum_subW (cfg : Config) (a x : Val) (cnt : Word) : (addW cfg x (subW a x) cnt).sum = a := by
  rw [addW_sum, subW_eq, BitVec.add_comm, BitVec.sub_add_cancel]

/-- Settles O44: any subtrahend is restored, and the third identity takes the product for it, so that it needs nothing
of the multiplier, the divider or a nonzero divisor. -/
theorem subtractThenAddRestores : Obligations.SubtractThenAddRestores :=
  fun cfg a b x cnt => ⟨addW_subW_sum cfg a b cnt, addW_sum_subW cfg a x cnt, fun _ => addW_sum_subW cfg a _ cnt⟩

/-! ### SUB -/

theorem exec_sub {s : State} (ha : s.readable .a = true) (hb : s.readable .b = true) :
    exec .sub s = .next { s.setVal .r (s.a - s.b) with st := withCode s.st 0 } :=
  exec_unchecked (i := .sub) (by simpa [operandsRead] using ⟨ha, hb⟩) rfl

/-- Settles O28: SUB's own effect writes the difference of the vectors, which is the integers' difference modulo
2^2048. -/
theorem subWritesWrappedDifference : Obligations.SubWritesWrappedDifference := by
  refine ⟨decode_busWord .sub, fun s ha hb => ?_⟩
  rw [← sub_eq_ofInt]
  exact exec_sub ha hb

end Sys2Proof.Proofs
end

section
/-! PROOFS. 43_mul.md R171 to R175: the multiplier's partial products, product and count, and what MUL writes. -/

namespace Sys2Proof.Proofs

open Sys2Proof Sys2Proof.Machine Sys2Proof.Laws

/-! ### The multiplier -/

/-- Multiplying by the vector of a number gives the numbers' product modulo 2^n, even when the number does not fit. -/
theorem toNat_mul_ofNat {n : Nat} (x : BitVec n) (m : Nat) :
    (x * BitVec.ofNat n m).toNat = (x.toNat * m) % 2 ^ n := by
  rw [BitVec.toNat_mul, BitVec.toNat_ofNat, Nat.mul_mod_mod]

/-- A multiplication counts, if only its doublings. -/
theorem mulAdditions_ne_zero (y : Val) : 2048 + popcount y ≠ 0 := by omega

/-- Settles O5: the partial products after `k` positions are products of vectors, and so is the last; every multiplier
counts, so CNT is the sum modulo 2^CNT_W. -/
theorem multiplierComputesProductAndCounts : Obligations.MultiplierComputesProductAndCounts := by
  intro cfg x y cnt
  refine ⟨?_, fun k _ => ?_, ?_, popcount_le y⟩
  · rw [mulW_val, BitVec.toNat_mul]
  · obtain ⟨hacc, hsh⟩ := mulAfter_vals cfg x y cnt k
    rw [hacc, hsh]
    exact ⟨toNat_mul_ofNat x _, toNat_mul_ofNat x _⟩
  · rw [mulW_cnt, ticks_toNat _ _ _ (mulAdditions_ne_zero y)]

/-- Settles O45: the value is the product of vectors, a commutative one, and each call counts by the operand that it
takes for the multiplier. -/
theorem productCommutesCountDoesNot : Obligations.ProductCommutesCountDoesNot := by
  intro cfg a b cnt
  refine ⟨?_, ?_, ?_, mulW_cnt cfg a b cnt, mulW_cnt cfg b a cnt, Nat.add_le_add_left (popcount_le b) 2048⟩
  · exact (mulW_val cfg a 0 cnt).trans BitVec.mul_zero
  · exact (mulW_val cfg a 1 cnt).trans (BitVec.mul_one a)
  · rw [mulW_val, mulW_val, BitVec.mul_comm]

/-! ### MUL -/

theorem exec_mul {s : State} (ha : s.readable .a = true) (hb : s.readable .b = true) :
    exec .mul s =
      .next { s.setVal .r (s.a * s.b) with
        cnt := ticks s.cfg (2048 + popcount s.b) s.cnt, st := withCode s.st 0 } :=
  exec_unchecked (i := .mul) (by simpa [operandsRead] using ⟨ha, hb⟩) rfl

/-- Settles O29: MUL's own effect writes the product of the vectors, which is the numbers' product modulo 2^2048, and
counts, whatever B holds. -/
theorem mulWritesWrappedProduct : Obligations.MulWritesWrappedProduct := by
  refine ⟨decode_busWord .mul, fun s ha hb => ?_⟩
  rw [← BitVec.toNat_mul, BitVec.ofNat_toNat, BitVec.setWidth_eq, exec_mul ha hb, ticks,
    if_neg (mulAdditions_ne_zero s.b)]

end Sys2Proof.Proofs
end

section
/-! PROOFS. 44_div.md R192 to R197: the divider's quotient and its count, the count's largest case, and what DIV writes
or raises. -/

namespace Sys2Proof.Proofs

open Sys2Proof Sys2Proof.Machine Sys2Proof.Reference Sys2Proof.Laws

/-! ### The quotient -/

/-- Settles O6: the loop's value is the floor quotient, whose product with the divisor is the dividend less a
remainder. -/
theorem dividerComputesFloor : Obligations.DividerComputesFloor := by
  intro cfg a b cnt hb
  rw [divW_val cfg a b cnt hb]
  refine ⟨rfl, Nat.div_mul_le_self _ _, ?_⟩
  rw [Nat.mul_comm]
  exact Nat.lt_mul_div_succ _ (toNat_pos hb)

/-! ### The count -/

/-- Bits known to be one are counted. -/
theorem le_popcountBelow_of_high_one {y : Val} {i k : Nat} (h : ∀ j < k, i ≤ j → y.getLsbD j = true) :
    k - i ≤ popcountBelow y k := by
  induction k with
  | zero => omega
  | succ k ih =>
    have hk := ih fun j hj => h j (Nat.lt_succ_of_lt hj)
    rw [popcountBelow]
    by_cases hik : i ≤ k
    · rw [h k (Nat.lt_succ_self k) hik, Bool.toNat_true]
      omega
    · omega

/-- Where the quotient has all its `n` bits set, so has the candidate from its own index on (44_div.md R190). -/
theorem divCandidate_two_pow_sub_one {n i : Nat} (hi : i < n) :
    divCandidate (2 ^ n - 1) i = 2 ^ i * (2 ^ (n - i) - 1) := by
  obtain ⟨m, rfl⟩ : ∃ m, n = i + 1 + m := ⟨n - (i + 1), by omega⟩
  have hm := Nat.two_pow_pos m
  have hquot : (2 ^ (i + 1 + m) - 1) / 2 ^ (i + 1) = 2 ^ m - 1 := by
    rw [Nat.pow_add, Nat.mul_sub_div 0 _ _ (by positivity), Nat.zero_div]
  obtain ⟨p, hp⟩ : ∃ p, 2 ^ m = p + 1 := ⟨2 ^ m - 1, by omega⟩
  rw [divCandidate, hquot, show i + 1 + m - i = m + 1 by omega, Nat.pow_succ 2 m, hp, Nat.add_sub_cancel,
    show (p + 1) * 2 - 1 = 2 * p + 1 by omega]
  ring

/-- Where every bit commits, the candidate of iteration `i` has as many bits as it can (44_div.md R192). -/
theorem popcount_divCandidate_allOnes {i : Nat} (hi : i < 2048) :
    popcount (BitVec.ofNat 2048 (divCandidate (2 ^ 2048 - 1) i)) = 2048 - i := by
  refine le_antisymm (popcount_divCandidate_le _ i) (le_popcountBelow_of_high_one fun j hj hij => ?_)
  have hwidth : j < 2048 := hj
  rw [divCandidate_two_pow_sub_one hi, BitVec.getLsbD_ofNat, Nat.testBit_two_pow_mul, Nat.testBit_two_pow_sub_one]
  simp only [Bool.and_eq_true, decide_eq_true_eq]
  omega

/-- An odd quotient is exact at bit 0 alone. -/
theorem divLast_two_pow_sub_one_one {n : Nat} (hn : n ≠ 0) : divLast (2 ^ n - 1) 1 = 0 := by
  rw [divLast, if_pos (one_dvd _), Nat.div_one]
  refine padicValNat.eq_zero_of_not_dvd fun hdvd => ?_
  have heven := dvd_pow_self 2 hn
  have hpos := Nat.two_pow_pos n
  omega

theorem divFirst_two_pow_sub_one_one (n : Nat) : divFirst (2 ^ (n + 1) - 1) 1 = n := by
  have hpos := Nat.two_pow_pos n
  have hlog : Nat.log2 (2 ^ (n + 1) - 1) = n := by
    rw [Nat.log2_eq_iff (by omega), Nat.pow_succ]
    omega
  rw [divFirst, hlog]
  rfl

/-- Dividing a number of all ones by 1 executes an iteration for each of its bits (44_div.md R192). -/
theorem divAdditions_two_pow_sub_one_one (n : Nat) :
    divAdditions (2 ^ (n + 1) - 1) 1 =
      ∑ i ∈ Finset.range (n + 1), (1 + 2048 + popcount (BitVec.ofNat 2048 (divCandidate (2 ^ (n + 1) - 1) i))) := by
  have hle := Nat.le_sub_one_of_lt (Nat.one_lt_two_pow n.succ_ne_zero)
  rw [divAdditions, if_neg (Nat.not_lt.mpr hle), divLast_two_pow_sub_one_one n.succ_ne_zero,
    divFirst_two_pow_sub_one_one, Nat.div_one, Nat.range_succ_eq_Icc_zero]

/-- The bound of `divAdditions_le` is reached (44_div.md R192). -/
theorem divAdditions_allOnes_one : divAdditions (2 ^ 2048 - 1) 1 = 6294528 := by
  have hcounts := sum_iterationCounts (n := 2047 + 1) (le_refl 2048)
  rw [divAdditions_two_pow_sub_one_one 2047,
    Finset.sum_congr rfl fun i hi => by rw [popcount_divCandidate_allOnes (Finset.mem_range.mp hi)]]
  omega

/-- Settles O7: the loop runs down from the first iteration, each candidate has no bit below its index, and the
quotient of all ones attains the sum of the bounds. -/
theorem dividerCountsExecutedIterations : Obligations.DividerCountsExecutedIterations :=
  ⟨fun cfg a b cnt hb => ⟨divW_cnt cfg a b cnt hb, divFirst_lt a b.toNat, fun _ i _ => popcount_divCandidate_le _ i,
    divAdditions_le a b.toNat⟩, divAdditions_allOnes_one⟩

/-! ### DIV -/

/-- A command with readable operands that trips no check has its own effect (60_exceptions.md R272). -/
theorem exec_of_not_trips {i : Instr} {s : State} (h : ∀ x ∈ operandsRead i, s.readable x = true)
    (hi : ∀ k, ¬ Trips i s k) : exec i s = .next { ownEffect i s with st := withCode s.st 0 } := by
  obtain ⟨t, ht⟩ := exec_ends h
  rcases exec_cases ht with ⟨k, hk, -⟩ | ⟨-, rfl⟩
  · exact absurd hk (hi k)
  · exact ht

/-- DIV's one check is that of its divisor (44_div.md R193). -/
theorem not_trips_div {s : State} (h0 : s.b ≠ 0) (k : FaultCode) : ¬ Trips .div s k := by
  cases k with
  | illegal => exact id
  | divZero => exact fun h => h0 h.2
  | badIndex => rintro ⟨n, h | h, -⟩ <;> cases h
  | zeroOperand => exact fun h => nomatch h.1

theorem exec_div {s : State} (ha : s.readable .a = true) (hb : s.readable .b = true) (h0 : s.b ≠ 0) :
    exec .div s =
      .next { s.setVal .r (BitVec.ofNat 2048 (s.a.toNat / s.b.toNat)) with
        cnt := ticks s.cfg (divAdditions s.a.toNat s.b.toNat) s.cnt, st := withCode s.st 0 } :=
  exec_of_not_trips (i := .div) (by simpa [operandsRead] using ⟨ha, hb⟩) (not_trips_div h0)

/-- The divisor is checked before any other work (44_div.md R193). -/
theorem exec_div_zero {s : State} (ha : s.readable .a = true) (hb : s.readable .b = true) (h0 : s.b = 0) :
    exec .div s = raise .divZero s := by
  rw [exec, execDiv, withAB_of_readable _ ha hb, if_pos h0]

/-- Settles O30: DIV's own effect when the divisor is not zero, else the raised DIVZERO. -/
theorem divWritesFloorQuotientOrFaults : Obligations.DivWritesFloorQuotientOrFaults :=
  ⟨decode_busWord .div, fun _ ha hb => ⟨exec_div ha hb, exec_div_zero ha hb⟩⟩

end Sys2Proof.Proofs
end

section
/-! PROOFS. 45_decimal.md R210 to R217, 47_system.md R260, R261: Times10, the trials at one power, the rendering and
what PRINT does, and what PRINT, NOP and RDCNT leave unchanged. -/

namespace Sys2Proof.Proofs

open Sys2Proof Sys2Proof.Machine Sys2Proof.Reference Sys2Proof.Laws

/-! ### Times10 -/

/-- Settles O8: ten times a vector is ten times its number modulo 2^2048, and five additions wrap as one count. -/
theorem timesTenCountsFive : Obligations.TimesTenCountsFive := by
  intro cfg p cnt
  constructor
  · rw [times10_val, BitVec.mul_comm, Nat.mul_comm]
    exact toNat_mul_ofNat p 10
  · rw [times10_cnt, ticks_toNat _ _ _ (by decide)]

/-! ### The digits -/

/-- The trials' three results at once; the running sum that they leave is a value (45_decimal.md R213, R217). -/
theorem digitTrials_eq (cfg : Config) {v p : Val} {fuel : Nat} {d : Digit} (hp : 0 < p.toNat)
    (hsum : d.sum.toNat ≤ v.toNat) (hfuel : (v.toNat - d.sum.toNat) / p.toNat < fuel) :
    digitTrials cfg v p fuel d =
      ⟨d.digit + (v.toNat - d.sum.toNat) / p.toNat,
        BitVec.ofNat 2048 (d.sum.toNat + (v.toNat - d.sum.toNat) / p.toNat * p.toNat),
        ticks cfg ((v.toNat - d.sum.toNat) / p.toNat + 1) d.cnt⟩ := by
  obtain ⟨hdigit, hleft, hcnt⟩ := digitTrials_spec cfg v p fuel d hp hsum hfuel
  rw [← hdigit, ← hleft, ← hcnt, BitVec.ofNat_toNat, BitVec.setWidth_eq]

/-- Settles O9: the digit is the quotient of what is left of `v` by the power, so that less than the power remains. -/
theorem digitTrialsFindTheDigit : Obligations.DigitTrialsFindTheDigit := by
  intro cfg v p sum cnt hp hsum hleft
  have hdigit : (v.toNat - sum.toNat) / p.toNat < maxTrials := Nat.div_lt_of_lt_mul (Nat.mul_comm 10 _ ▸ hleft)
  have htaken := Nat.div_mul_le_self (v.toNat - sum.toNat) p.toNat
  have hrest := Nat.lt_mul_div_succ (v.toNat - sum.toNat) hp
  rw [Nat.mul_comm] at hrest
  refine ⟨_, Nat.le_of_lt_succ hdigit, ?_, by omega, by omega⟩
  rw [digitTrials_eq cfg hp hsum hdigit, Nat.zero_add]

/-! ### The rendering and PRINT -/

/-- Settles O10: the rendering is the decimal digits' bytes and the additions of R215, for digits that are at most 617,
each at most 9. -/
theorem renderingIsDecimalExpansion : Obligations.RenderingIsDecimalExpansion := by
  intro cfg v cnt
  rw [renderW_eq]
  exact ⟨rfl, rfl, decimalDigits_length_le v, decimalDigits_le_nine v.toNat⟩

/-- Settles O35: PRINT has no operand check, and its own effect emits and counts as the rendering of A does. -/
theorem printEmitsDecimalDigits : Obligations.PrintEmitsDecimalDigits :=
  ⟨decode_busWord .print, fun _ ha => exec_print ha⟩

/-! ### Frames -/

/-- OUT is on no bus word (20_memory.md R53). -/
theorem memRead_emit (s : State) (bytes : List Byte) (addr : Nat) : memRead (s.emit bytes) addr = memRead s addr := rfl

/-- Of the bus words, N's alone depends on N. -/
theorem memRead_setN_other {addr : Nat} (s : State) (n : Word) (h : addr ≠ 0x61) :
    memRead { s with n := n } addr = memRead s addr := by
  simp only [memRead, if_neg h]

/-- Settles O39: the three commands have no operand check, and their own effects write OUT and CNT, nothing, and N. -/
theorem printAndSystemFrame : Obligations.PrintAndSystemFrame := by
  refine fun i s t h => ⟨?print, ?nop, ?rdcnt⟩ <;> rintro rfl <;> obtain rfl := eq_ownEffect_of_exec rfl h
  case print =>
    refine ⟨rfl, rfl, rfl, rfl, rfl, rfl, rfl, fun addr hst hcnt => ?_⟩
    rw [memRead_setSt_other _ _ hst, ownEffect, memRead_setCnt_other _ _ hcnt, memRead_emit]
  case nop => exact ⟨rfl, fun addr hst => memRead_setSt_other s _ hst⟩
  case rdcnt =>
    refine ⟨rfl, fun addr hn hst => ?_⟩
    rw [memRead_setSt_other _ _ hst, ownEffect, memRead_setN_other _ _ hn]

end Sys2Proof.Proofs
end

section
/-! PROOFS. 46_bit_helpers.md R240 to R245: the leading-zero count and the top set bit, what LZC, MSB, BIT and POW2
write or raise, and what they leave unchanged. -/

namespace Sys2Proof.Proofs

open Sys2Proof Sys2Proof.Machine Sys2Proof.Laws

/-! ### The leading-zero detector -/

theorem lzcVal_eq (x : Val) : lzcVal x = 2048 - Nat.size x.toNat := Nat.eq_sub_of_add_eq (lzcVal_size x)

theorem lzcVal_zero : lzcVal 0 = 2048 := by
  rw [lzcVal_eq, zero_toNat, Nat.size_zero]

theorem lzcVal_le_of_ne_zero {x : Val} (h : x ≠ 0) : lzcVal x ≤ 2047 := by
  have hsize := size_pos_of_ne_zero h
  rw [lzcVal_eq]
  omega

theorem msbVal_eq_log2 {x : Val} (h : x ≠ 0) : msbVal x = Nat.log2 x.toNat :=
  ((Nat.log2_eq_iff (toNat_pos h).ne').mpr (msbVal_bounds h)).symm

theorem getLsbD_msbVal {x : Val} (h : x ≠ 0) : x.getLsbD (msbVal x) = true := by
  obtain ⟨hle, hlt⟩ := msbVal_bounds h
  exact Nat.testBit_of_two_pow_le_and_two_pow_add_one_gt hle hlt

/-- The upper bound of `msbVal_bounds`, bit by bit. -/
theorem getLsbD_of_msbVal_lt {x : Val} {j : Nat} (h : x ≠ 0) (hj : msbVal x < j) : x.getLsbD j = false := by
  obtain ⟨-, hlt⟩ := msbVal_bounds h
  exact Nat.testBit_lt_two_pow (hlt.trans_le (Nat.pow_le_pow_right (by decide) hj))

/-- Settles O11: the count is 2048 less the bit length, and a nonzero value lies between the power of two of its MSB
index and the next one. -/
theorem leadingZerosAndTopBit : Obligations.LeadingZerosAndTopBit :=
  fun x => ⟨lzcVal_eq x, fun h0 => h0 ▸ lzcVal_zero, fun h =>
    ⟨rfl, lzcVal_le_of_ne_zero h, getLsbD_msbVal h, fun _ => getLsbD_of_msbVal_lt h⟩⟩

/-! ### What each command answers -/

theorem exec_lzc {s : State} (ha : s.readable .a = true) :
    exec .lzc s = complete { s with n := BitVec.ofNat 64 (lzcVal s.a) } := by
  rw [exec, execLzc, withVal_of_readable _ ha, State.val]

theorem exec_msb {s : State} (ha : s.readable .a = true) :
    exec .msb s =
      if s.a = 0 then raise .zeroOperand s else complete { s with n := BitVec.ofNat 64 (msbVal s.a) } := by
  rw [exec, execMsb, withVal_of_readable _ ha, State.val]

theorem exec_bit (idx : Word) {s : State} (ha : s.readable .a = true) :
    exec (.bit idx) s =
      if idx.toNat < 2048 then complete { s with f := flagOf (s.a.getLsbD idx.toNat) } else raise .badIndex s := by
  rw [exec, execBit, withVal_of_readable _ ha, State.val]
  simp only [indexLegal_iff]

theorem exec_pow2 (idx : Word) (s : State) :
    exec (.pow2 idx) s =
      if idx.toNat < 2048 then complete (s.setVal .r (pow2Val idx.toNat)) else raise .badIndex s := by
  rw [exec, execPow2]
  simp only [indexLegal_iff]

/-- Settles O31: LZC completes with the detector's count of A. -/
theorem lzcCountsLeadingZeros : Obligations.LzcCountsLeadingZeros := by
  refine ⟨decode_busWord .lzc, fun s ha => ?_⟩
  rw [exec_lzc ha, lzcVal_eq]
  rfl

/-- Settles O32: MSB's check separates the raised ZERO_OPERAND from the MSB index, which is the base-2 logarithm. -/
theorem msbFindsTopBitOrFaults : Obligations.MsbFindsTopBitOrFaults := by
  refine ⟨decode_busWord .msb, fun s ha => ⟨fun hne => ?nonzero, fun h0 => ?zero⟩⟩
  case nonzero =>
    rw [exec_msb ha, if_neg hne, msbVal_eq_log2 hne]
    rfl
  case zero =>
    rw [exec_msb ha, if_pos h0]
    rfl

/-- A bit of a value is the bit of its limb (46_bit_helpers.md R243). -/
theorem testBit_eq_limb_getLsbD (x : Val) (n : Nat) : x.toNat.testBit n = (limb x (n / 64)).getLsbD (n % 64) := by
  rw [limb_getLsbD, decide_eq_true (Nat.mod_lt n (by decide)), Bool.true_and, Nat.div_add_mod, BitVec.testBit_toNat]

/-- Settles O33: BIT's check separates the tested bit, which its limb holds too, from the raised BAD_INDEX. -/
theorem bitTestsBitOrFaults : Obligations.BitTestsBitOrFaults := by
  refine ⟨fun imm => decode_busWord (.bit imm) imm, fun idx s ha => ⟨fun hlt => ⟨?legal, ?limb⟩, fun hge => ?illegal⟩⟩
  case legal =>
    rw [exec_bit idx ha, if_pos hlt]
    rfl
  case limb => exact testBit_eq_limb_getLsbD s.a idx.toNat
  case illegal =>
    rw [exec_bit idx ha, if_neg (Nat.not_lt.mpr hge)]
    rfl

/-- Settles O34: POW2's check separates the power, which is below 2^2048 and so not wrapped, from the raised
BAD_INDEX. -/
theorem pow2SetsOneBitOrFaults : Obligations.Pow2SetsOneBitOrFaults := by
  refine ⟨fun imm => decode_busWord (.pow2 imm) imm, fun idx s => ⟨fun hlt => ?legal, fun hge => ?illegal⟩⟩
  case legal =>
    rw [exec_pow2, if_pos hlt]
    exact ⟨_, rfl, pow2Val_toNat hlt, rfl⟩
  case illegal =>
    rw [exec_pow2, if_neg (Nat.not_lt.mpr hge)]
    rfl

/-! ### Frames -/

/-- A completed command has written ST on the old state, when it faulted, or on that of its own effect
(60_exceptions.md R272, R273). -/
theorem eq_setSt_of_exec {i : Instr} {s t : State} (h : exec i s = .next t) :
    ∃ st, t = { s with st := st } ∨ t = { ownEffect i s with st := st } := by
  rcases exec_cases h with ⟨k, -, ht⟩ | ⟨-, ht⟩
  · exact ⟨_, .inl ht⟩
  · exact ⟨_, .inr ht⟩

/-- Settles O38: the own effect of LZC and MSB writes N, that of BIT writes F, that of POW2 writes R with its marks, and
a fault writes none of these. -/
theorem bitHelperFrame : Obligations.BitHelperFrame := by
  intro i s t h
  obtain ⟨st, rfl | rfl⟩ := eq_setSt_of_exec h
  case inl => exact ⟨fun _ => rfl, fun _ => rfl, fun _ => ⟨rfl, rfl, rfl⟩⟩
  case inr =>
    refine ⟨?count, ?bit, ?pow2⟩
    case count => rintro (rfl | rfl) <;> rfl
    case bit => rintro ⟨n, rfl⟩; rfl
    case pow2 => rintro ⟨n, rfl⟩; exact ⟨rfl, rfl, rfl⟩

end Sys2Proof.Proofs
end

section
/-! PROOFS. 60_exceptions.md R270 to R274: what raising a fault writes, the code that each issued word leaves, and that
STICKY records every fault until a reset. -/

namespace Sys2Proof.Proofs

open Sys2Proof Sys2Proof.Machine Sys2Proof.Safety Sys2Proof.Laws

/-! ### Raising a fault -/

/-- The fault codes are the nonzero ones (60_exceptions.md R271). -/
theorem code_ne_zero (k : FaultCode) : k.code ≠ 0 := by cases k <;> decide

/-- Settles O17: a fault writes its code and then sets STICKY, which touches no other field. -/
theorem faultWritesOnlyStatus : Obligations.FaultWritesOnlyStatus := by
  refine fun k s => ⟨_, rfl, ?code, stSticky_withSticky _, stLegal_raise k⟩
  case code =>
    rw [stCode_withSticky, stCode_withCode]
    cases k <;> rfl

/-! ### How ST moves -/

/-- What an access other than a reset does to ST: nothing, or the end of a completed command, or that of a faulting one
(60_exceptions.md R272, R273). -/
inductive StMove (st : Word) : Word → Prop where
  | keeps : StMove st st
  | completes : StMove st (withCode st 0)
  | faults (k : FaultCode) : StMove st (withSticky (withCode st k.code))

/-- No move clears STICKY (60_exceptions.md R274). -/
theorem StMove.sticky {st st' : Word} (h : StMove st st') (hs : stSticky st = true) : stSticky st' = true := by
  cases h with
  | keeps => exact hs
  | completes => rw [stSticky_withCode, hs]
  | faults k => exact stSticky_withSticky _

theorem StMove.legal {st st' : Word} (h : StMove st st') (hst : stLegal st = true) : stLegal st' = true := by
  cases h with
  | keeps => exact hst
  | completes => exact stLegal_withCode_zero hst
  | faults k => exact stLegal_raise k hst

/-- The bits of ST outside CODE and STICKY stay (10_state.md R27). -/
theorem StMove.getLsbD {st st' : Word} (h : StMove st st') {i : Nat} (hcode : 4 ≤ i) (hsticky : i ≠ 8) :
    st'.getLsbD i = st.getLsbD i := by
  cases h with
  | keeps => rfl
  | completes => rw [withCode_getLsbD, if_neg (Nat.not_lt.mpr hcode)]
  | faults k =>
    rw [withSticky_getLsbD, decide_eq_false hsticky, Bool.or_false, withCode_getLsbD, if_neg (Nat.not_lt.mpr hcode)]

theorem issue_stMove {v : Word} {s t : State} (h : issue v s = .next t) : StMove s.st t.st := by
  rcases issue_cases h with ⟨k, rfl⟩ | ⟨i, -, -, rfl⟩
  · exact .faults k
  · exact .completes

/-- Among the accesses that are no reset, an issued command alone touches ST. -/
theorem step_stMove {s t : State} (h : step s = .next t) (hreset : ∀ during rest, s.pending ≠ .reset during :: rest) :
    StMove s.st t.st := by
  rcases step_cases h with ⟨-, rfl⟩ | ⟨_, _, -, rfl⟩ | ⟨during, rest, hp, -⟩ |
    ⟨_, v, rest, -, ⟨x, k, -, -, rfl⟩ | ⟨-, rfl⟩ | ⟨-, -, -, rfl⟩ | ⟨-, hissue⟩⟩
  · exact .keeps
  · exact .keeps
  · exact absurd hp (hreset during rest)
  · rw [writeLimb_st]
    exact .keeps
  · exact .keeps
  · exact .keeps
  · exact issue_stMove (s := { s with pending := rest }) hissue

/-- Settles O21: a step is a reset, or a move of ST, and no move clears STICKY. -/
theorem stickyStaysUntilReset : Obligations.StickyStaysUntilReset := by
  intro s t h hs
  by_cases hreset : ∃ during rest, s.pending = .reset during :: rest
  · exact .inr hreset
  · exact .inl ((step_stMove h fun during rest hp => hreset ⟨during, rest, hp⟩).sticky hs)

/-! ### The code of an issued word -/

/-- Settles O18: an issued word that completes has faulted, leaving all but ST, or has had its command's own effect,
which leaves ST. -/
theorem faultsArePrecise : Obligations.FaultsArePrecise := by
  intro v s t h
  refine ⟨?_, fun i hcode hsticky => (issue_stMove h).getLsbD hcode hsticky⟩
  rcases issue_cases h with ⟨k, rfl⟩ | ⟨i, -, -, rfl⟩
  · refine .inr ⟨?_, stSticky_withSticky _, rfl⟩
    rw [stCode_withSticky, stCode_withCode]
    exact code_ne_zero k
  · exact .inl ⟨stCode_withCode _ _, stSticky_withCode _ _⟩

/-- The code that a command's own operand check gives (60_exceptions.md R271, R272). -/
def operandCode (s : State) : Instr → BitVec 4
  | .div => if s.b = 0 then 2 else 0
  | .bit n | .pow2 n => if 2048 ≤ n.toNat then 3 else 0
  | .msb => if s.a = 0 then 4 else 0
  | .nop | .ldi _ _ | .mov _ _ | .add | .sub | .mul | .lt | .eq | .lzc | .print | .rdcnt => 0

theorem operandCode_of_trips {i : Instr} {s : State} {k : FaultCode} (h : Trips i s k) : operandCode s i = k.code := by
  cases k with
  | illegal => exact h.elim
  | divZero => obtain ⟨rfl, hb⟩ := h; exact if_pos hb
  | badIndex => obtain ⟨n, rfl | rfl, hn⟩ := h <;> exact if_pos hn
  | zeroOperand => obtain ⟨rfl, ha⟩ := h; exact if_pos ha

theorem operandCode_of_not_trips {i : Instr} {s : State} (h : ∀ k, ¬ Trips i s k) : operandCode s i = 0 := by
  cases i with
  | div => exact if_neg fun hb => h .divZero ⟨rfl, hb⟩
  | bit n => exact if_neg fun hn => h .badIndex ⟨n, .inl rfl, hn⟩
  | pow2 n => exact if_neg fun hn => h .badIndex ⟨n, .inr rfl, hn⟩
  | msb => exact if_neg fun ha => h .zeroOperand ⟨rfl, ha⟩
  | _ => rfl

theorem stCode_of_exec {i : Instr} {s t : State} (h : exec i s = .next t) : stCode t.st = operandCode s i := by
  rcases exec_cases h with ⟨k, hk, rfl⟩ | ⟨hk, rfl⟩
  · rw [operandCode_of_trips hk, stCode_withSticky, stCode_withCode]
  · rw [operandCode_of_not_trips hk, stCode_withCode]

/-- Settles O19: a word that does not decode raises ILLEGAL, and one that does leaves its command's code. -/
theorem statusCodeByCause : Obligations.StatusCodeByCause := by
  intro v s t h
  cases hd : decode v s.cmdImm with
  | error e =>
    rw [issue_error hd] at h
    obtain rfl := raise_next h
    exact (stCode_withSticky _).trans (stCode_withCode _ _)
  | ok i =>
    rw [issue_ok hd] at h
    rw [stCode_of_exec h]
    cases i <;> rfl

/-! ### Runs without a reset -/

theorem noResetPending_iff {s : State} : noResetPending s = true ↔ ∀ during, .reset during ∉ s.pending := by
  rw [noResetPending, List.all_eq_true]
  constructor
  · exact fun h during hmem => Bool.false_ne_true (h _ hmem)
  · intro h acc hmem
    cases acc with
    | read addr => rfl
    | write addr v => rfl
    | reset during => exact absurd hmem (h during)

/-- A step off a list without resets moves ST. -/
theorem step_stMove_of_noResetPending {s t : State} (h : step s = .next t) (hn : noResetPending s = true) :
    StMove s.st t.st :=
  step_stMove h fun during _ hp => noResetPending_iff.mp hn during (hp ▸ List.mem_cons_self)

theorem step_noResetPending {s t : State} (h : step s = .next t) (hn : noResetPending s = true) :
    noResetPending t = true := by
  rw [noResetPending_iff] at hn ⊢
  rw [(step_pending h).1]
  exact fun during hmem => hn during (List.mem_of_mem_drop hmem)

theorem noFault_iff {s : State} : noFault s = true ↔ ¬ stSticky s.st = true := by
  rw [noFault, Bool.not_eq_true', Bool.not_eq_true]

/-- A legal ST has a fault code only with STICKY (10_state.md R27). -/
theorem stCode_eq_zero_of_noFault {s : State} (hst : stLegal s.st = true) (h : noFault s = true) :
    stCode s.st = 0 := by
  simp only [stLegal, Bool.and_eq_true, Bool.or_eq_true, beq_iff_eq] at hst
  exact hst.2.resolve_right (noFault_iff.mp h)

/-- STICKY clear at the end of a run was clear at its start (60_exceptions.md R274). -/
theorem noFault_of_run {n : Nat} {s t : State} (hn : noResetPending s = true)
    (hrun : Host.Core.run Sys2Proof.core n s = .next t) (ht : noFault t = true) : noFault s = true := by
  induction n generalizing s with
  | zero => cases hrun; exact ht
  | succ n ih =>
    obtain ⟨u, hstep, hrun⟩ := run_succ.mp hrun
    have hu := noFault_iff.mp (ih (step_noResetPending hstep hn) hrun)
    exact noFault_iff.mpr (mt (step_stMove_of_noResetPending hstep hn).sticky hu)

/-- Settles O22, by induction on the steps taken: what is left of the run starts at a legal ST with no reset waiting and
ends with STICKY clear, so it starts with STICKY clear. -/
theorem cleanStickyMeansNoFault : Obligations.CleanStickyMeansNoFault := by
  intro n s t hn hst hrun ht m hm
  induction m generalizing n s with
  | zero =>
    have hs := noFault_of_run hn hrun ht
    exact ⟨s, rfl, stCode_eq_zero_of_noFault hst hs, hs⟩
  | succ m ih =>
    obtain ⟨n, rfl⟩ : ∃ j, n = j + 1 := ⟨n - 1, by omega⟩
    obtain ⟨w, hstep, hrun⟩ := run_succ.mp hrun
    have hw := (step_stMove_of_noResetPending hstep hn).legal hst
    obtain ⟨u, hu, hclean⟩ := ih n w (step_noResetPending hstep hn) hw hrun (Nat.le_of_succ_le_succ hm)
    exact ⟨u, run_succ.mpr ⟨w, hstep, hu⟩, hclean⟩

end Sys2Proof.Proofs
end

section
/-! PROOFS. 47_system.md R260, R261, 70_reset_and_hazards.md R300, R301, R307: NOP and RDCNT, a reset, and that every
command and every access on the bus ends. -/

namespace Sys2Proof.Proofs

open Sys2Proof Sys2Proof.Machine Sys2Proof.Safety Sys2Proof.Laws

/-! ### NOP, RDCNT and reset -/

/-- Settles O23: neither command reads a register or has an operand check, so each ends with its own effect. -/
theorem nopAndRdcntEffects : Obligations.NopAndRdcntEffects :=
  ⟨fun imm => ⟨decode_busWord .nop imm, decode_busWord .rdcnt imm⟩, fun _ => ⟨rfl, rfl⟩⟩

/-- Settles O52: a reset takes effect whether or not it stands in place of a command's issue. -/
theorem resetClearsEveryElement : Obligations.ResetClearsEveryElement :=
  fun _ _ _ hp => ⟨_, step_access hp, rfl, rfl, rfl, rfl, rfl, rfl, rfl, rfl, rfl⟩

/-! ### Everything ends -/

theorem exec_ends_of_not_strict (i : Instr) {s : State} (h : s.cfg.strictUnwritten = false) : Ends (exec i s) :=
  exec_ends fun x _ => readable_of_not_strict x h

theorem limbReadable_of_not_strict {s : State} (x : Reg) (k : Nat) (h : s.cfg.strictUnwritten = false) :
    s.limbReadable x k = true := by
  rw [State.limbReadable, h]
  rfl

theorem issue_ends (v : Word) {s : State} (h : s.cfg.strictUnwritten = false) : Ends (issue v s) := by
  cases hd : decode v s.cmdImm with
  | error e =>
    rw [issue_error hd]
    exact raise_ends _ s
  | ok i =>
    rw [issue_ok hd]
    exact exec_ends_of_not_strict i h

theorem memWrite_ends (addr : Nat) (v : Word) {s : State} (h : s.cfg.strictUnwritten = false) :
    Ends (memWrite addr v s) := by
  rcases memWrite_cases addr v s with ⟨x, k, -, -, hw⟩ | ⟨-, hw⟩ | ⟨-, hw⟩ | ⟨-, -, -, hw⟩
  · exact ⟨_, hw⟩
  · exact ⟨_, hw⟩
  · rw [hw]
    exact issue_ends v h
  · exact ⟨_, hw⟩

/-- Safety of the host by kind of access: a reset has no address. -/
theorem hostSafe_iff {s : State} :
    hostSafe s = true ↔ s.cfg.strictUnwritten = false ∧ (∀ addr, .read addr ∈ s.pending → s.onBus addr = true) ∧
      ∀ addr v, .write addr v ∈ s.pending → s.onBus addr = true := by
  rw [hostSafe, Bool.and_eq_true, Bool.not_eq_true', List.all_eq_true]
  refine and_congr_right fun _ => ⟨fun h => ⟨fun _ => h _, fun _ _ => h _⟩, fun ⟨hread, hwrite⟩ acc hmem => ?_⟩
  cases acc with
  | read addr => exact hread addr hmem
  | write addr v => exact hwrite addr v hmem
  | reset during => rfl

theorem step_ends {s : State} (h : hostSafe s = true) : Ends (step s) := by
  obtain ⟨hstrict, hread, hwrite⟩ := hostSafe_iff.mp h
  cases hp : s.pending with
  | nil => exact ⟨s, step_idle hp⟩
  | cons acc rest =>
    rw [hp] at hread hwrite
    cases acc with
    | read addr =>
      have hbus := hread addr List.mem_cons_self
      exact ⟨_, step_read hp hbus fun x k _ => limbReadable_of_not_strict x k hstrict⟩
    | write addr v =>
      rw [step_write hp (hwrite addr v List.mem_cons_self)]
      exact memWrite_ends addr v hstrict
    | reset during => exact ⟨_, step_access hp⟩

/-- The waiting accesses that are left are of the same list, and the bus is as wide. -/
theorem step_hostSafe {s t : State} (h : step s = .next t) (hs : hostSafe s = true) : hostSafe t = true := by
  obtain ⟨hpending, hcfg⟩ := step_pending h
  rw [hostSafe_iff] at hs ⊢
  obtain ⟨hstrict, hread, hwrite⟩ := hs
  simp only [State.onBus, hpending, hcfg]
  exact ⟨hstrict, fun addr hmem => hread addr (List.mem_of_mem_drop hmem),
    fun addr v hmem => hwrite addr v (List.mem_of_mem_drop hmem)⟩

theorem run_ends (n : Nat) {s : State} (h : hostSafe s = true) :
    ∃ t : State, Host.Core.run Sys2Proof.core n s = .next t := by
  induction n generalizing s with
  | zero => exact ⟨s, rfl⟩
  | succ n ih =>
    obtain ⟨u, hstep⟩ := step_ends h
    obtain ⟨t, hrun⟩ := ih (step_hostSafe hstep h)
    exact ⟨t, run_succ.mpr ⟨u, hstep, hrun⟩⟩

/-- Settles O55: without STRICT_UNWRITTEN every operand is readable, and a run is steps that each end and keep the host
safe. -/
theorem everyCommandEnds : Obligations.EveryCommandEnds :=
  ⟨fun i _ => exec_ends_of_not_strict i, fun n _ => run_ends n⟩

end Sys2Proof.Proofs
end
